-- ==== Sys2Proof/Word.lean ====
section
/-! DEFINITION. The machine's words, addresses and register numbers (spec/00_scope.md R6, R9).

There are no bytes anywhere in this machine: the 16-bit word is the smallest unit (20_memory.md R44; log 1). -/

namespace Sys2Proof

/-- A register, a memory word and an instruction word: `WORD` = 16 bits (R6). -/
abbrev Word := BitVec 16

/-- A memory address and the program counter: `ADDR` = 13 bits (R6). -/
abbrev Addr := BitVec 13

/-- A register number, 0 to 7: `NREG` = 8 (R6). -/
abbrev Reg := Fin 8

end Sys2Proof
end

