-- ==== Sys2Proof/Config.lean ====
section
/-! DEFINITION. What is fixed for a whole run (00_scope.md R6 to R8), as types, and the free values.

The values themselves are held in State, because `step` takes nothing but a State (log 6). -/

namespace Sys2Proof

/-- `MEM_SIZE` (R6). -/
def memSize : Nat := 8192

/-- The register `jal` writes: `LINK` (R6). -/
def linkReg : Reg := 7

/-- The reset value of registers 1 to 7, `regReset` (10_state.md R34). DESIGN CHOICE of the spec, D9; log 3. -/
def regReset : Word := 0

/-- What a memory word reads as that nothing has written, `memReset` (10_state.md R35).
DESIGN CHOICE of the spec, D10; log 2. -/
def memReset : Word := 0

/-- The triple that configures one cache level (R7). -/
structure LevelParams where
  /-- `size`, in words -/
  size : Nat
  /-- `associativity`, ways per row -/
  assoc : Nat
  /-- `blockSize`, words per block -/
  blockSize : Nat
deriving DecidableEq, Repr

/-- The cache configuration: one or two levels, "an enumerated configuration" (46_interfaces_trace.md R191).
Zero levels is not expressible (90_conflicts.md C1). -/
inductive CacheConfig where
  | l1Only (l1 : LevelParams)
  | l1AndL2 (l1 l2 : LevelParams)
deriving DecidableEq, Repr

/-- How one of several candidate ways is taken: the setting of `hitScan` and of `freeWayPick` (R8). -/
inductive WayPick where
  /-- the lowest index: `hitScan = ascending` (D6), `freeWayPick = lowest` (D7) -/
  | lowest
  /-- any of the candidates: which one is a free value (log 10, log 11) -/
  | any
deriving DecidableEq, Repr

/-- The parameters R8 leaves open that act in a step. -/
structure OpenParams where
  /-- whether `slt` and `slti` compare signed (D4) -/
  sltSigned : Bool
  /-- which matching way a lookup returns (44_cache_level.md R147, D6) -/
  hitScan : WayPick
  /-- which invalid way an install takes (44_cache_level.md R150, D7) -/
  freeWayPick : WayPick
deriving DecidableEq, Repr

/-- The defaults R8 gives. -/
def OpenParams.default : OpenParams := ⟨false, .lowest, .lowest⟩

/-- The configuration of `State.reset`: `size=2, A=1, B=1` and no L2, the source's first worked example
(44_cache_level.md R142, R158). The spec gives no configuration for reset: DESIGN CHOICE, log 5. -/
def CacheConfig.default : CacheConfig := .l1Only ⟨2, 1, 1⟩

/-- The name of a level in an event (46_interfaces_trace.md R196). -/
inductive LevelName where
  | L1
  | L2
deriving DecidableEq, Repr

/-- The number by which the hierarchy selects a level (44_cache_level.md R156). -/
def LevelName.number : LevelName → Nat
  | .L1 => 1
  | .L2 => 2

/-- FREE VALUE: the choice among several matching ways when `hitScan` is `any` (R147), for the level and the
number of the access. It has no body: nothing is known of its values. Log 10. -/
opaque Config.freeHitWay : LevelName → Nat → Nat

/-- FREE VALUE: the choice among several invalid ways when `freeWayPick` is `any` (R150), for the level and the
number of the access. It has no body: nothing is known of its values. Log 11. -/
opaque Config.freeInstallWay : LevelName → Nat → Nat

end Sys2Proof
end

