-- ==== Sys2Proof/Machine/Flags.lean ====
section
/-! DEFINITION. The machine has no flags and no condition codes (10_state.md R20, 40_alu_rtype.md R100): no instruction
computes or writes one. What stands here is what the spec has in their place: the conditions `slt`, `slti` and `jeq` test. -/

namespace Sys2Proof.Machine

/-- `a < b` of `slt` and `slti`: of the two unsigned numbers, or of the two signed numbers when `sltSigned`
(40_alu_rtype.md R105, 41_alu_imm.md R112; D4, log 13). -/
def lessThan (sltSigned : Bool) (a b : Word) : Bool :=
  if sltSigned then decide (a.toInt < b.toInt) else decide (a.toNat < b.toNat)

/-- The whole 16-bit result of a set-on-less-than: 1 or 0 (R105). -/
def boolWord (b : Bool) : Word := if b then 1 else 0

/-- The condition of `jeq`: the two 16-bit values are equal (42_control.md R121). -/
def condEqual (a b : Word) : Bool := decide (a = b)

end Sys2Proof.Machine
end

