-- ==== Sys2Proof/Syntax.lean ====
section
/-! DEFINITION. The instructions: one constructor per row of spec/opcode_table.json (30_encoding.md R80).

Register fields carry the spec's position names `rA`, `rB`, `rC` (00_scope.md R11). An immediate of the I-type
is the signed number it stands for and a J-type target is the address it stands for (30_encoding.md R88);
WellFormed.lean says which of them an instruction word can hold. -/

namespace Sys2Proof

inductive Instr where
  /-- `add`: 40_alu_rtype.md R101. -/
  | add (rA rB rC : Reg)
  /-- `sub`: 40_alu_rtype.md R102. -/
  | sub (rA rB rC : Reg)
  /-- `or`: 40_alu_rtype.md R103. -/
  | or (rA rB rC : Reg)
  /-- `and`: 40_alu_rtype.md R104. -/
  | and (rA rB rC : Reg)
  /-- `slt`: 40_alu_rtype.md R105. -/
  | slt (rA rB rC : Reg)
  /-- `jr`: 42_control.md R120. -/
  | jr (rA : Reg)
  /-- `addi`: 41_alu_imm.md R111. -/
  | addi (rA rB : Reg) (imm : Int)
  /-- `j`, and `halt` when the target is the instruction's own address: 42_control.md R122, R123. -/
  | j (target : Nat)
  /-- `jal`: 42_control.md R124. -/
  | jal (target : Nat)
  /-- `lw`: 43_load_store.md R131. -/
  | lw (rA rB : Reg) (imm : Int)
  /-- `sw`: 43_load_store.md R132. -/
  | sw (rA rB : Reg) (imm : Int)
  /-- `jeq`: 42_control.md R121. -/
  | jeq (rA rB : Reg) (imm : Int)
  /-- `slti`: 41_alu_imm.md R112. -/
  | slti (rA rB : Reg) (imm : Int)
deriving DecidableEq, Repr

end Sys2Proof
end

