-- ==== Sys2Proof/WellFormed.lean ====
section
/-! DEFINITION. Which instructions an instruction word can hold (30_encoding.md R88: "`i` a signed immediate in
`[-64, 63]`" and "`t` in `[0, 8191]`"). Every register number is legal by its type (R85). -/

namespace Sys2Proof

/-- The signed values of a 7-bit immediate (R78). -/
def immFits (imm : Int) : Bool := decide (-64 ≤ imm) && decide (imm ≤ 63)

/-- The values of a 13-bit target (R79). -/
def targetFits (target : Nat) : Bool := decide (target < 8192)

def Instr.wellFormed : Instr → Bool
  | .add _ _ _ => true
  | .sub _ _ _ => true
  | .or _ _ _ => true
  | .and _ _ _ => true
  | .slt _ _ _ => true
  | .jr _ => true
  | .addi _ _ imm => immFits imm
  | .j target => targetFits target
  | .jal target => targetFits target
  | .lw _ _ imm => immFits imm
  | .sw _ _ imm => immFits imm
  | .jeq _ _ imm => immFits imm
  | .slti _ _ imm => immFits imm

end Sys2Proof
end

