-- ==== Sys2Proof/Decode.lean ====
section
/-! DEFINITION. The 16-bit codec: `decode`, total on all words (30_encoding.md R83), and `encode` (R88).

Opcode numbers 1 to 7 and the order of the register fields are PRESUMED by the spec (D2, D3; logs 14, 15); they stand
here in one table, used by both directions. -/

namespace Sys2Proof

/-! ## The opcode table (R81) and the function codes (R82) -/

def opRType : BitVec 3 := 0
def opAddi : BitVec 3 := 1
def opJ : BitVec 3 := 2
def opJal : BitVec 3 := 3
def opLw : BitVec 3 := 4
def opSw : BitVec 3 := 5
def opJeq : BitVec 3 := 6
def opSlti : BitVec 3 := 7

def funcAdd : BitVec 4 := 0
def funcSub : BitVec 4 := 1
def funcOr : BitVec 4 := 2
def funcAnd : BitVec 4 := 3
def funcSlt : BitVec 4 := 4
def funcJr : BitVec 4 := 8

/-! ## The fields of a word (R75) -/

def fieldOp (w : Word) : BitVec 3 := w.extractLsb' 13 3
def fieldA (w : Word) : Reg := (w.extractLsb' 10 3).toFin
def fieldB (w : Word) : Reg := (w.extractLsb' 7 3).toFin
def fieldC (w : Word) : Reg := (w.extractLsb' 4 3).toFin
def fieldFunc (w : Word) : BitVec 4 := w.extractLsb' 0 4
def fieldImm7 (w : Word) : BitVec 7 := w.extractLsb' 0 7
def fieldImm13 (w : Word) : BitVec 13 := w.extractLsb' 0 13

/-- `sext7` (R78): a 7-bit two's-complement number (90_conflicts.md C6). -/
def sext7 (v : BitVec 7) : Int := if v.toNat ≤ 63 then v.toNat else (v.toNat : Int) - 128

/-! ## Decode -/

/-- What a word decodes to: one of the 13 kinds, or the invalid instruction, by name (R83, R84). -/
inductive Decoded where
  | valid (i : Instr)
  | invalid (w : Word)
deriving DecidableEq, Repr

/-- The R-type kinds, told apart by the function code (R82). `jr` ignores bits 9:4 (R85). -/
def decodeRType (w : Word) : Decoded :=
  if fieldFunc w = funcAdd then .valid (.add (fieldA w) (fieldB w) (fieldC w))
  else if fieldFunc w = funcSub then .valid (.sub (fieldA w) (fieldB w) (fieldC w))
  else if fieldFunc w = funcOr then .valid (.or (fieldA w) (fieldB w) (fieldC w))
  else if fieldFunc w = funcAnd then .valid (.and (fieldA w) (fieldB w) (fieldC w))
  else if fieldFunc w = funcSlt then .valid (.slt (fieldA w) (fieldB w) (fieldC w))
  else if fieldFunc w = funcJr then .valid (.jr (fieldA w))
  else .invalid w

/-- The decoder (R83): a total function of the word alone. The seven other kinds are told by opcode; the last
opcode left is `slti`'s. -/
def decode (w : Word) : Decoded :=
  if fieldOp w = opRType then decodeRType w
  else if fieldOp w = opAddi then .valid (.addi (fieldA w) (fieldB w) (sext7 (fieldImm7 w)))
  else if fieldOp w = opJ then .valid (.j (fieldImm13 w).toNat)
  else if fieldOp w = opJal then .valid (.jal (fieldImm13 w).toNat)
  else if fieldOp w = opLw then .valid (.lw (fieldA w) (fieldB w) (sext7 (fieldImm7 w)))
  else if fieldOp w = opSw then .valid (.sw (fieldA w) (fieldB w) (sext7 (fieldImm7 w)))
  else if fieldOp w = opJeq then .valid (.jeq (fieldA w) (fieldB w) (sext7 (fieldImm7 w)))
  else .valid (.slti (fieldA w) (fieldB w) (sext7 (fieldImm7 w)))

/-! ## Encode -/

/-- The three bits of a register field. -/
def regBits (r : Reg) : BitVec 3 := BitVec.ofNat 3 r.val

/-- The R-type word `000 aaa bbb ccc ffff` (R72). -/
def encodeR (rA rB rC : Reg) (func : BitVec 4) : Word :=
  opRType ++ regBits rA ++ regBits rB ++ regBits rC ++ func

/-- The I-type word `ooo aaa bbb iiiiiii` (R73); the low 7 bits of the immediate are stored (R88). -/
def encodeI (op : BitVec 3) (rA rB : Reg) (imm : Int) : Word :=
  op ++ regBits rA ++ regBits rB ++ BitVec.ofInt 7 imm

/-- The J-type word `ooo ttttttttttttt` (R74). -/
def encodeJ (op : BitVec 3) (target : Nat) : Word :=
  op ++ BitVec.ofNat 13 target

/-- The encoder (R88). `jr` has zeros in its ignored fields (D26; log 18). -/
def encode : Instr → Word
  | .add rA rB rC => encodeR rA rB rC funcAdd
  | .sub rA rB rC => encodeR rA rB rC funcSub
  | .or rA rB rC => encodeR rA rB rC funcOr
  | .and rA rB rC => encodeR rA rB rC funcAnd
  | .slt rA rB rC => encodeR rA rB rC funcSlt
  | .jr rA => encodeR rA 0 0 funcJr
  | .addi rA rB imm => encodeI opAddi rA rB imm
  | .j target => encodeJ opJ target
  | .jal target => encodeJ opJal target
  | .lw rA rB imm => encodeI opLw rA rB imm
  | .sw rA rB imm => encodeI opSw rA rB imm
  | .jeq rA rB imm => encodeI opJeq rA rB imm
  | .slti rA rB imm => encodeI opSlti rA rB imm

/-! ## The host's view -/

/-- The word of an instruction that the opcode table numbers with `nbits` bits: an instruction is one word, and
the bits above `nbits` are 0 (R70). -/
def tableWord (nbits w : Nat) : Word := BitVec.ofNat 16 (w % 2 ^ nbits)

/-- The instruction the decoder reads from a word numbered as spec/opcode_table.json numbers it. -/
def decodeTableWord (nbits w : Nat) : Option Instr :=
  match decode (tableWord nbits w) with
  | .valid i => some i
  | .invalid _ => none

end Sys2Proof
end

