-- ==== Sys2Proof/Machine/Memory.lean ====
section
/-! DEFINITION. The memory `M[0..8191]` (20_memory.md R40): words by address, in one canonical form.

The cells are words and not bytes, because the machine has no bytes (R44; log 1). An address that is not listed reads
as `memReset` (10_state.md R35; log 2). -/

namespace Sys2Proof.Machine

/-- Address and word, addresses rising, no word equal to `memReset`. -/
abbrev Memory := List (Nat × Word)

/-- `M[a]` (00_scope.md R10). -/
def Memory.read : Memory → Nat → Word
  | [], _ => memReset
  | (k, v) :: m, a => if k = a then v else Memory.read m a

/-- Put a cell where its address belongs. -/
def Memory.insert (a : Nat) (v : Word) : Memory → Memory
  | [] => [(a, v)]
  | (k, w) :: m => if a < k then (a, v) :: (k, w) :: m else (k, w) :: Memory.insert a v m

/-- `M[a] <- v` (R10). Writing what an unlisted address reads as removes the entry. -/
def Memory.write (m : Memory) (a : Nat) (v : Word) : Memory :=
  let rest := m.filter fun c => c.1 ≠ a
  if v = memReset then rest else Memory.insert a v rest

/-- `MemRead(base, n)` (R10): `n` words read directly from memory. -/
def Memory.readBlock (m : Memory) (base n : Nat) : List Word :=
  (List.range n).map fun i => Memory.read m (base + i)

/-- The addresses rise strictly. -/
def Memory.rising : Memory → Bool
  | [] => true
  | (k, _) :: m => m.all (fun c => decide (k < c.1)) && Memory.rising m

/-- The canonical form: addresses inside the memory, strictly rising, no entry equal to what an unlisted address
reads as. -/
def Memory.wf (m : Memory) : Bool :=
  Memory.rising m && m.all fun c => decide (c.1 < memSize) && decide (c.2 ≠ memReset)

/-- Words written at `base`, `base + 1`, … in order. -/
def Memory.writeFrom (m : Memory) (base : Nat) : List Word → Memory
  | [] => m
  | v :: vs => Memory.writeFrom (Memory.write m base v) (base + 1) vs

/-- Memory that holds `fill` everywhere: the start with another `memReset` than the default (R8). -/
def Memory.filled (fill : Word) : Memory :=
  if fill = memReset then [] else (List.range memSize).map fun a => (a, fill)

end Sys2Proof.Machine
end

