-- ==== Sys2Proof/Machine/Level.lean ====
section
/-! DEFINITION. One cache level: its arrays and its operations (44_cache_level.md).

The same structure serves as L1 and as L2 (R156). -/

namespace Sys2Proof.Machine

/-- One way: "`valid` flag, `tag` (integer), `blockData` (B words)" (R140). -/
structure Way where
  valid : Bool
  tag : Nat
  data : List Word
deriving DecidableEq, Repr

/-- One row: its ways by index, and its recency list, front least recently used (R140, R148). -/
structure Row where
  ways : List Way
  recency : List Nat
deriving DecidableEq, Repr

/-- One level: its parameters (constant during a run, log 6) and its rows. -/
structure CacheLevel where
  params : LevelParams
  rows : List Row
deriving DecidableEq, Repr

/-! ## Parameters (R141, R142) -/

/-- `rowCount = size div (A * B)` (R142). -/
def rowCount (p : LevelParams) : Nat := p.size / (p.assoc * p.blockSize)

/-- The constraints of R141. -/
def legalLevel (p : LevelParams) : Bool :=
  decide (1 ≤ p.assoc) && decide (1 ≤ p.blockSize) && decide (p.assoc * p.blockSize ≤ p.size)
    && decide (p.size % (p.assoc * p.blockSize) = 0) && decide (memSize % p.blockSize = 0)

/-! ## Address decomposition (R143, R145) -/

def blockNumber (p : LevelParams) (a : Addr) : Nat := a.toNat / p.blockSize
def offsetOf (p : LevelParams) (a : Addr) : Nat := a.toNat % p.blockSize
def rowOf (p : LevelParams) (a : Addr) : Nat := blockNumber p a % rowCount p
def tagOf (p : LevelParams) (a : Addr) : Nat := blockNumber p a / rowCount p

/-- The first address of the block that holds `a` (R145). -/
def blockBase (p : LevelParams) (a : Addr) : Nat := blockNumber p a * p.blockSize

/-- The highest tag an address can have at a level (70_reset_and_hazards.md R256). -/
def maxTag (p : LevelParams) : Nat := 8191 / p.blockSize / rowCount p

/-! ## Choosing a way -/

/-- One of several candidates, given in ascending order: the lowest, or the one a free value picks
(R147, R150; logs 10, 11). -/
def pickWay (p : WayPick) (free : Nat) (candidates : List Nat) : Option Nat :=
  match p with
  | .lowest => candidates.head?
  | .any => candidates[free % candidates.length]?

/-- Whether a way is valid. -/
def Row.validAt (r : Row) (w : Nat) : Bool :=
  match r.ways[w]? with
  | some y => y.valid
  | none => false

/-- Whether a way is valid and holds the tag (R146): an invalid way never matches. -/
def Row.matchesAt (r : Row) (tag w : Nat) : Bool :=
  match r.ways[w]? with
  | some y => y.valid && decide (y.tag = tag)
  | none => false

/-- The matching ways of a row, ascending (R146). -/
def Row.matching (r : Row) (tag : Nat) : List Nat :=
  (List.range r.ways.length).filter fun w => r.matchesAt tag w

/-- The invalid ways of a row, ascending (R150). -/
def Row.free (r : Row) : List Nat :=
  (List.range r.ways.length).filter fun w => !r.validAt w

/-- `touch` (R149): remove the way from the recency list if present, append it. -/
def Row.touch (r : Row) (w : Nat) : Row :=
  { r with recency := (r.recency.filter fun v => v ≠ w) ++ [w] }

/-- `choose` (R150): an invalid way if there is one, else the front of the recency list. -/
def Row.choose (r : Row) (pick : WayPick) (free : Nat) : Option Nat :=
  match pickWay pick free r.free with
  | some w => some w
  | none => r.recency.head?

/-- Write a block into a way, validate it and touch it (R151). -/
def Row.put (r : Row) (w tag : Nat) (data : List Word) : Row :=
  Row.touch { r with ways := r.ways.set w ⟨true, tag, data⟩ } w

/-- `install` within the row (R151). A full row of a well-formed level has a front to evict; in a state no run
reaches that has none, nothing is installed (log 26). -/
def Row.install (r : Row) (pick : WayPick) (free tag : Nat) (data : List Word) : Row :=
  match r.choose pick free with
  | some w => r.put w tag data
  | none => r

/-! ## The operations of a level -/

/-- The row an address maps to. -/
def CacheLevel.rowAt (l : CacheLevel) (a : Addr) : Option Row := l.rows[rowOf l.params a]?

/-- `lookup` (R146, R147): the way of a hit, or none for a miss. It changes no state. -/
def CacheLevel.lookup (l : CacheLevel) (pick : WayPick) (free : Nat) (a : Addr) : Option Nat :=
  match l.rowAt a with
  | some r => pickWay pick free (r.matching (tagOf l.params a))
  | none => none

/-- `read` (R155): the word at the address's offset in the way's block data. -/
def CacheLevel.readWay (l : CacheLevel) (a : Addr) (w : Nat) : Word :=
  match l.rowAt a with
  | some r =>
    match r.ways[w]? with
    | some y => y.data.getD (offsetOf l.params a) 0
    | none => 0
  | none => 0

/-- `touch` of a way in the row of an address (R149). -/
def CacheLevel.touch (l : CacheLevel) (a : Addr) (w : Nat) : CacheLevel :=
  { l with rows := l.rows.modify (rowOf l.params a) fun r => r.touch w }

/-- `install` (R151; R158 and 70_reset_and_hazards.md R255 (5)): the block of the address, read directly from
memory, goes into the chosen way. -/
def CacheLevel.install (l : CacheLevel) (pick : WayPick) (free : Nat) (m : Memory) (a : Addr) : CacheLevel :=
  { l with rows := l.rows.modify (rowOf l.params a) fun r =>
      r.install pick free (tagOf l.params a) (m.readBlock (blockBase l.params a) l.params.blockSize) }

/-! ## A level at reset (10_state.md R36) -/

/-- Every way starts invalid; its tag and data are unspecified and unobservable (R36): DESIGN CHOICE 0, log 4. -/
def emptyWay (p : LevelParams) : Way := ⟨false, 0, List.replicate p.blockSize 0⟩

def emptyRow (p : LevelParams) : Row := ⟨List.replicate p.assoc (emptyWay p), []⟩

/-- Every way invalid, every recency list empty (70_reset_and_hazards.md R240). -/
def CacheLevel.empty (p : LevelParams) : CacheLevel := ⟨p, List.replicate (rowCount p) (emptyRow p)⟩

/-! ## Well-formed levels (R153; 10_state.md R30) -/

/-- A row of a level (70_reset_and_hazards.md R255 (3)): `A` ways of `B` words, tags in range; the
recency list has no duplicates and holds exactly
the valid ways. -/
def Row.wf (p : LevelParams) (r : Row) : Bool :=
  decide (r.ways.length = p.assoc) && decide r.recency.Nodup
    && r.recency.all (fun w => r.validAt w)
    && (List.range p.assoc).all (fun w => !r.validAt w || r.recency.contains w)
    && r.ways.all (fun y => decide (y.data.length = p.blockSize) && decide (y.tag ≤ maxTag p))

/-- A legal level whose arrays have the shape of R140 and whose rows are well-formed. -/
def CacheLevel.wf (l : CacheLevel) : Bool :=
  legalLevel l.params && decide (l.rows.length = rowCount l.params) && l.rows.all (Row.wf l.params)

end Sys2Proof.Machine
end

