-- ==== Sys2Proof/Machine/State.lean ====
section
/-! DEFINITION. The state of the machine (10_state.md R20), the reasons a step can stop, and the state after reset. -/

namespace Sys2Proof.Machine

/-- 10_state.md R27. -/
inductive RunState where
  | running
  | halted
deriving DecidableEq, Repr

/-- The status of a cache event (46_interfaces_trace.md R196). -/
inductive CacheStatus where
  | hit
  | miss
  | sw
deriving DecidableEq, Repr

/-- One record of the trace (46_interfaces_trace.md R196, R197). -/
inductive Event where
  /-- `Cache(level, status, pc, addr, row)` -/
  | cache (level : LevelName) (status : CacheStatus) (pc addr : Addr) (row : Nat)
  /-- `InvalidInstruction(pc, w)` -/
  | invalidInstruction (pc : Addr) (w : Word)
  /-- `InvalidCacheSelector(n)`; no program can cause it (44_cache_level.md R156) -/
  | invalidCacheSelector (n : Nat)
deriving DecidableEq, Repr

/-- Everything the spec gives the machine (10_state.md R20), the constants of the run (log 6), and one counter of
the model's own. -/
structure State where
  /-- the program counter (R24) -/
  pc : Addr
  /-- `x[0..7]` (R21); read and written through `Regs.read` and `Regs.write` -/
  regs : Vector Word 8
  /-- `M[0..8191]` (R26) -/
  mem : Memory
  /-- R27 -/
  runState : RunState
  /-- L1: always present (00_scope.md R7) -/
  l1 : CacheLevel
  /-- L2: present iff `nLevels = 2`; "Absence of L2 is a first-class configuration" (00_scope.md R7) -/
  l2 : Option CacheLevel
  /-- the event trace, oldest first (46_interfaces_trace.md R195) -/
  trace : List Event
  /-- the open parameters, constant during a run (00_scope.md R8) -/
  opts : OpenParams
  /-- the model's own: how many loads and stores have run; the free choices are applied to it (log 12) -/
  draws : Nat
deriving DecidableEq, Repr

/-- Why a state is a fault. NO STEP ANSWERS A FAULT: the one exception of this machine has the literal effect the spec
gives it, a next state (60_exceptions.md R210; log 8). The reason below is the class R211 gives such a state, and
`State.faultClass` of Ops.lean names it, and `runFor` of Interface.lean reports it. Safe. -/
inductive Fault where
  /-- the word at `pc` is an invalid instruction: not final, and no final state can be reached (R211);
  named by `State.faultClass`, reported by `runFor`, raised by no step; safe -/
  | invalidInstruction (pc : Addr) (w : Word)
deriving DecidableEq, Repr

/-- Why a step has no meaning. -/
inductive Refusal where
  /-- an arm of `exec` without a meaning yet; no arm is; safe -/
  | notModelled (mnemonic : String)
  /-- the cache configuration does not meet 44_cache_level.md R141, so the machine does not start; raised by
  `step` in every such state; safe (log 7) -/
  | illegalConfiguration
deriving DecidableEq, Repr

/-- The machine right after reset with no program image (10_state.md R33 to R37, 70_reset_and_hazards.md R240), for
the configuration L1 `size=2, A=1, B=1` without L2 (`CacheConfig.default`: DESIGN CHOICE, log 5) and the default open
parameters (00_scope.md R8). `State.start` of Interface.lean gives the start for any other configuration and image. -/
def State.reset : State where
  pc := 0
  regs := (Vector.replicate 8 regReset).set 0 0
  mem := []
  runState := .running
  l1 := CacheLevel.empty ⟨2, 1, 1⟩
  l2 := none
  trace := []
  opts := OpenParams.default
  draws := 0

end Sys2Proof.Machine
end

