-- ==== Sys2Proof/Machine/Ops.lean ====
section
/-! DEFINITION. The named operations over registers, the program counter, memory, the trace and the cache levels, and
taking the one exception. Every change of State goes through one of them. -/

namespace Sys2Proof.Machine

/-! ## Registers (10_state.md R21, R22) -/

/-- A read of register 0 is 0 in every role (R21). -/
def Regs.read (x : Vector Word 8) (r : Reg) : Word := if r = 0 then 0 else x[r]

/-- A write to register 0 is discarded (R22; 70_reset_and_hazards.md R255 (1)). -/
def Regs.write (x : Vector Word 8) (r : Reg) (v : Word) : Vector Word 8 := if r = 0 then x else x.set r v

/-- `x[r]` (00_scope.md R10). -/
def State.readReg (s : State) (r : Reg) : Word := Regs.read s.regs r

/-- `x[r] <- v` (R10). -/
def State.writeReg (s : State) (r : Reg) (v : Word) : State := { s with regs := Regs.write s.regs r v }

/-! ## Program counter (10_state.md R24, R25) -/

/-- `pc <- t`: `t mod 8192` (R10). -/
def State.setPc (s : State) (t : Int) : State := { s with pc := BitVec.ofInt 13 t }

/-- `incr_pc(n)`, negative `n` included (R25; 70_reset_and_hazards.md R255 (2)). -/
def State.incrPc (s : State) (n : Int) : State := s.setPc ((s.pc.toNat : Int) + n)

/-! ## Memory (20_memory.md) -/

/-- `M[a]` read directly (R47). -/
def State.readMem (s : State) (a : Addr) : Word := s.mem.read a.toNat

/-- `M[a] <- v` (R49). -/
def State.writeMem (s : State) (a : Addr) (v : Word) : State := { s with mem := s.mem.write a.toNat v }

/-- Instruction fetch reads `M[pc]` directly and never goes through a cache (R47). -/
def State.fetch (s : State) : Word := s.readMem s.pc

/-! ## Run state (10_state.md R27) and trace (46_interfaces_trace.md R195) -/

def State.halt (s : State) : State := { s with runState := .halted }

/-- `emit E` (R10). -/
def State.emit (s : State) (e : Event) : State := { s with trace := s.trace ++ [e] }

/-- One more access has consulted the free choices (log 12). -/
def State.countAccess (s : State) : State := { s with draws := s.draws + 1 }

/-! ## The level interface: a level is selected by its number (44_cache_level.md R156) -/

/-- The level with a number, if it is configured. -/
def State.level? (s : State) (n : Nat) : Option CacheLevel :=
  match n with
  | 1 => some s.l1
  | 2 => s.l2
  | _ => none

/-- An operation that reads a level: what it answers, and the state after, which is unchanged. Addressed to a level that
is not configured it answers `absent`, changes nothing and emits a diagnostic (R156; log 29). -/
def State.queryLevel {α : Type} (s : State) (n : Nat) (f : CacheLevel → α) (absent : α) : α × State :=
  match s.level? n with
  | some l => (f l, s)
  | none => (absent, s.emit (.invalidCacheSelector n))

/-- An operation that changes a level. On a level that is not configured it changes nothing and emits a diagnostic
(R156; log 29). -/
def State.onLevel (s : State) (n : Nat) (f : CacheLevel → CacheLevel) : State :=
  { s with
    l1 := if n = 1 then f s.l1 else s.l1
    l2 := if n = 2 then s.l2.map f else s.l2
    trace := if (s.level? n).isSome then s.trace else s.trace ++ [.invalidCacheSelector n] }

/-- `lookup` at a level (R146, R147), and the state after. At a level that is not configured it finds no way. -/
def State.lookup (s : State) (n : LevelName) (a : Addr) : Option Nat × State :=
  s.queryLevel n.number (fun l => l.lookup s.opts.hitScan (Config.freeHitWay n s.draws) a) none

/-- `read` at a level (R155), and the state after. At a level that is not configured it delivers 0 (log 29). -/
def State.read (s : State) (n : LevelName) (a : Addr) (w : Nat) : Word × State :=
  s.queryLevel n.number (fun l => l.readWay a w) 0

/-- What a `lookup` at a level answers. -/
def State.lookupLevel (s : State) (n : LevelName) (a : Addr) : Option Nat := (s.lookup n a).1

/-- What a `read` at a level answers. -/
def State.readLevel (s : State) (n : LevelName) (a : Addr) (w : Nat) : Word := (s.read n a w).1

/-- `touch` at a level (R149). -/
def State.touchLevel (s : State) (n : LevelName) (a : Addr) (w : Nat) : State :=
  s.onLevel n.number fun l => l.touch a w

/-- `install` at a level: the block comes from memory as it is now (R151). -/
def State.installLevel (s : State) (n : LevelName) (a : Addr) : State :=
  s.onLevel n.number fun l => l.install s.opts.freeWayPick (Config.freeInstallWay n s.draws) s.mem a

/-- The row of an address at a level. -/
def State.rowIndex (s : State) (n : LevelName) (a : Addr) : Nat :=
  match s.level? n.number with
  | some l => rowOf l.params a
  | none => 0

/-- The event of a cache access: level, status, the pc of this instruction, the address, its row at that level
(45_cache_hierarchy.md R181). -/
def State.cacheEvent (s : State) (n : LevelName) (st : CacheStatus) (a : Addr) : Event :=
  .cache n st s.pc a (s.rowIndex n a)

/-! ## Configuration (44_cache_level.md R141) -/

/-- Every configured level meets R141. -/
def State.configLegal (s : State) : Bool :=
  legalLevel s.l1.params && (match s.l2 with | some l => legalLevel l.params | none => true)

/-- The cache configuration the levels were allocated with (00_scope.md R7). -/
def State.config (s : State) : CacheConfig :=
  match s.l2 with
  | none => .l1Only s.l1.params
  | some l => .l1AndL2 s.l1.params l.params

/-! ## The class of a state about to raise the exception (60_exceptions.md R211, R226) -/

/-- The fault of a state about to raise `InvalidInstruction`: "a state that is not final, from which no final state is
reachable" (60_exceptions.md R211; D14, log 8). -/
def State.faultClass (s : State) : Option Fault :=
  match s.runState with
  | .halted => none
  | .running =>
    match decode s.fetch with
    | .valid _ => none
    | .invalid w => some (.invalidInstruction s.pc w)

/-! ## The exception, and what a halted machine does -/

/-- `raise InvalidInstruction(pc, w)` (60_exceptions.md R210): emit the event; `pc`, registers, memory, run state and
caches stay. Nothing is saved and control goes nowhere; there is no return from it (R215, R216). Log 8. -/
def State.raiseInvalidInstruction (s : State) (w : Word) : State := s.emit (.invalidInstruction s.pc w)

/-- What a step does with an invalid word. -/
def stepInvalid (w : Word) (s : State) : Host.Outcome State Fault Refusal := .next (s.raiseInvalidInstruction w)

/-- A halted machine emits nothing and changes nothing until reset (10_state.md R27). Log 9. -/
def stepHalted (s : State) : Host.Outcome State Fault Refusal := .next s

end Sys2Proof.Machine
end

