-- ==== Sys2Proof/Machine/Operands.lean ====
section
/-! DEFINITION. The operand forms: sign-extended immediates, the one addressing mode, targets and the link value. -/

namespace Sys2Proof.Machine

/-- `sext7_16`: a signed immediate as a 16-bit pattern (30_encoding.md R78). -/
def immWord (imm : Int) : Word := BitVec.ofInt 16 imm

/-- The effective address `(x[rA] + sext7(imm7)) & 8191`, the sum over the integers (43_load_store.md R130). -/
def effectiveAddr (base : Word) (imm : Int) : Addr := BitVec.ofInt 13 ((base.toNat : Int) + imm)

/-- The link value `pc + 1`, an integer in [1, 8192] that is not reduced modulo 8192 (42_control.md R124; log 17). -/
def linkValue (pc : Addr) : Word := BitVec.ofNat 16 (pc.toNat + 1)

end Sys2Proof.Machine
end

