-- ==== Sys2Proof/Machine/AluImm.lean ====
section
/-! DEFINITION. `addi`, `slti` (41_alu_imm.md). -/

namespace Sys2Proof.Machine

/-- The shape the two share (R110): the operand is read before the destination is written; `pc` advances by 1. -/
def State.aluImm (s : State) (rA rB : Reg) (f : Word → Word) : State :=
  (s.writeReg rB (f (s.readReg rA))).incrPc 1

/-- R111. -/
def execAddi (rA rB : Reg) (imm : Int) (s : State) : Host.Outcome State Fault Refusal :=
  .next (s.aluImm rA rB fun a => BitVec.ofInt 16 ((a.toNat : Int) + imm))

/-- R112: the immediate is compared as the 16-bit pattern `sext7_16`. -/
def execSlti (rA rB : Reg) (imm : Int) (s : State) : Host.Outcome State Fault Refusal :=
  .next (s.aluImm rA rB fun a => boolWord (lessThan s.opts.sltSigned a (immWord imm)))

end Sys2Proof.Machine
end

