-- ==== Sys2Proof/Machine/AluReg.lean ====
section
/-! DEFINITION. `add`, `sub`, `or`, `and`, `slt` (40_alu_rtype.md). -/

namespace Sys2Proof.Machine

/-- The shape the five share (R100): both operands are read before the destination is written; the result is the
integer the operation gives, masked to 16 bits; `pc` advances by 1. -/
def State.aluReg (s : State) (rA rB rC : Reg) (f : Word → Word → Word) : State :=
  (s.writeReg rC (f (s.readReg rA) (s.readReg rB))).incrPc 1

/-- R101. -/
def execAdd (rA rB rC : Reg) (s : State) : Host.Outcome State Fault Refusal :=
  .next (s.aluReg rA rB rC fun a b => BitVec.ofNat 16 (a.toNat + b.toNat))

/-- R102. The operand order is the spec's reading, D33 (log 16). -/
def execSub (rA rB rC : Reg) (s : State) : Host.Outcome State Fault Refusal :=
  .next (s.aluReg rA rB rC fun a b => BitVec.ofInt 16 ((a.toNat : Int) - (b.toNat : Int)))

/-- R103. -/
def execOr (rA rB rC : Reg) (s : State) : Host.Outcome State Fault Refusal :=
  .next (s.aluReg rA rB rC fun a b => a ||| b)

/-- R104. -/
def execAnd (rA rB rC : Reg) (s : State) : Host.Outcome State Fault Refusal :=
  .next (s.aluReg rA rB rC fun a b => a &&& b)

/-- R105. -/
def execSlt (rA rB rC : Reg) (s : State) : Host.Outcome State Fault Refusal :=
  .next (s.aluReg rA rB rC fun a b => boolWord (lessThan s.opts.sltSigned a b))

end Sys2Proof.Machine
end

