-- ==== Sys2Proof/Machine/Control.lean ====
section
/-! DEFINITION. `jr`, `jeq`, `j` with its halt form, `jal` (42_control.md). -/

namespace Sys2Proof.Machine

/-- R120: the upper three bits of the register are dropped. -/
def execJr (rA : Reg) (s : State) : Host.Outcome State Fault Refusal :=
  .next (s.setPc ((s.readReg rA).toNat : Int))

/-- R121. -/
def execJeq (rA rB : Reg) (imm : Int) (s : State) : Host.Outcome State Fault Refusal :=
  .next (s.incrPc (if condEqual (s.readReg rA) (s.readReg rB) then 1 + imm else 1))

/-- R122, and R123 when the target is the instruction's own address: the halt form changes the run state only. -/
def execJ (target : Nat) (s : State) : Host.Outcome State Fault Refusal :=
  .next (if target = s.pc.toNat then s.halt else s.setPc (target : Int))

/-- R124: never a halt; the link is computed from the `pc` of the `jal`. -/
def execJal (target : Nat) (s : State) : Host.Outcome State Fault Refusal :=
  .next ((s.writeReg linkReg (linkValue s.pc)).setPc (target : Int))

end Sys2Proof.Machine
end

