-- ==== Sys2Proof/Machine/Hierarchy.lean ====
section
/-! DEFINITION. The cache hierarchy: what one load and one store do (45_cache_hierarchy.md). -/

namespace Sys2Proof.Machine

/-- The end of a load that hits a level (R172, R173): the word read from the way, and the way touched. -/
def State.deliver (s : State) (n : LevelName) (a : Addr) (w : Nat) : Word × State :=
  match s.read n a w with
  | (v, s) => (v, (s.touchLevel n a w).countAccess)

/-- `CacheLoad(a)` (R171): the loaded word and the state after. The cases are those of the table of R175: L1 hit; L1
miss without L2; L1 miss and L2 hit (L1 is not filled, R173; 70_reset_and_hazards.md R255 (6)); a miss at both
(L2 is filled, then L1, R174). -/
def State.cacheLoad (s : State) (a : Addr) : Word × State :=
  match s.lookup .L1 a with
  | (some w, s) => (s.emit (s.cacheEvent .L1 .hit a)).deliver .L1 a w
  | (none, s) =>
    match s.l2 with
    | none =>
      (s.readMem a, ((s.emit (s.cacheEvent .L1 .miss a)).installLevel .L1 a).countAccess)
    | some _ =>
      match (s.emit (s.cacheEvent .L1 .miss a)).lookup .L2 a with
      | (some w, s) => (s.emit (s.cacheEvent .L2 .hit a)).deliver .L2 a w
      | (none, s) =>
        (s.readMem a,
          (((s.emit (s.cacheEvent .L2 .miss a)).installLevel .L2 a).installLevel .L1 a).countAccess)

/-- One level's part of a store: install the block, then emit `SW` (R176). -/
def State.storeLevel (s : State) (n : LevelName) (a : Addr) : State :=
  (s.installLevel n a).emit (s.cacheEvent n .sw a)

/-- `CacheStore(a, v)` (R176): memory first, unconditionally; then L1, then L2 if it is configured (R177). A store never
looks up (R178). One `SW` a level (R179; 70_reset_and_hazards.md R255 (7)). -/
def State.cacheStore (s : State) (a : Addr) (v : Word) : State :=
  match s.l2 with
  | none => ((s.writeMem a v).storeLevel .L1 a).countAccess
  | some _ => (((s.writeMem a v).storeLevel .L1 a).storeLevel .L2 a).countAccess

end Sys2Proof.Machine
end

