-- ==== Sys2Proof/Machine/LoadStore.lean ====
section
/-! DEFINITION. `lw`, `sw` (43_load_store.md). -/

namespace Sys2Proof.Machine

/-- R131: the address from the registers at the start of the instruction; the hierarchy; the destination register (unless
0); `pc` (45_cache_hierarchy.md R182; log 21). -/
def execLw (rA rB : Reg) (imm : Int) (s : State) : Host.Outcome State Fault Refusal :=
  .next (((s.cacheLoad (effectiveAddr (s.readReg rA) imm)).2.writeReg rB
    (s.cacheLoad (effectiveAddr (s.readReg rA) imm)).1).incrPc 1)

/-- R132. -/
def execSw (rA rB : Reg) (imm : Int) (s : State) : Host.Outcome State Fault Refusal :=
  .next ((s.cacheStore (effectiveAddr (s.readReg rA) imm) (s.readReg rB)).incrPc 1)

end Sys2Proof.Machine
end

