-- ==== Sys2Proof/Machine/Dispatch.lean ====
section
/-! DEFINITION. One arm per instruction (70_reset_and_hazards.md R243). -/

namespace Sys2Proof.Machine

def exec (i : Instr) (s : State) : Host.Outcome State Fault Refusal :=
  match i with
  | .add rA rB rC => Sys2Proof.Machine.execAdd rA rB rC s
  | .sub rA rB rC => Sys2Proof.Machine.execSub rA rB rC s
  | .or rA rB rC => Sys2Proof.Machine.execOr rA rB rC s
  | .and rA rB rC => Sys2Proof.Machine.execAnd rA rB rC s
  | .slt rA rB rC => Sys2Proof.Machine.execSlt rA rB rC s
  | .jr rA => Sys2Proof.Machine.execJr rA s
  | .addi rA rB imm => Sys2Proof.Machine.execAddi rA rB imm s
  | .j target => Sys2Proof.Machine.execJ target s
  | .jal target => Sys2Proof.Machine.execJal target s
  | .lw rA rB imm => Sys2Proof.Machine.execLw rA rB imm s
  | .sw rA rB imm => Sys2Proof.Machine.execSw rA rB imm s
  | .jeq rA rB imm => Sys2Proof.Machine.execJeq rA rB imm s
  | .slti rA rB imm => Sys2Proof.Machine.execSlti rA rB imm s

end Sys2Proof.Machine
end

