-- ==== Sys2Proof/Machine/Step.lean ====
section
/-! DEFINITION. One step: fetch, decode, execute (70_reset_and_hazards.md R243). -/

namespace Sys2Proof.Machine

/-- A machine whose configuration does not meet R141 does not start (log 7). A halted machine stays as it is (log 9). A
running one fetches `M[pc]`, decodes it and executes it; an invalid word raises `InvalidInstruction`. -/
def step (s : State) : Host.Outcome State Fault Refusal :=
  if s.configLegal then
    match s.runState with
    | .halted => stepHalted s
    | .running =>
      match decode s.fetch with
      | .valid i => exec i s
      | .invalid w => stepInvalid w s
  else .refused .illegalConfiguration

/-- `s` with an instruction word stored where the next step fetches: at `pc`. Only a running machine fetches, so the
machine is running (log 25). -/
def State.withFetchWord (s : State) (nbits w : Nat) : State :=
  { s.writeMem s.pc (tableWord nbits w) with runState := .running }

end Sys2Proof.Machine
end

