-- ==== Sys2Proof/Laws/Memory.lean ====
section
/-! SUPPORT. The laws of memory: a read after a write, and that every operation keeps the canonical form. -/

namespace Sys2Proof.Machine

theorem Memory.read_insert_same (a : Nat) (v : Word) (m : Memory) (h : ∀ c ∈ m, c.1 ≠ a) :
    Memory.read (Memory.insert a v m) a = v := by
  induction m with
  | nil => simp [Memory.insert, Memory.read]
  | cons c m ih =>
    have hc : c.1 ≠ a := h c (by simp)
    have hm : ∀ d ∈ m, d.1 ≠ a := fun d hd => h d (by simp [hd])
    by_cases hlt : a < c.1 <;> simp [Memory.insert, Memory.read, hlt, hc, ih hm]

theorem Memory.read_insert_other {a b : Nat} (hab : b ≠ a) (v : Word) (m : Memory) :
    Memory.read (Memory.insert a v m) b = Memory.read m b := by
  induction m with
  | nil => simp [Memory.insert, Memory.read, hab.symm]
  | cons c m ih => by_cases hlt : a < c.1 <;> simp [Memory.insert, Memory.read, hlt, hab.symm, ih]

theorem Memory.read_filter_same (a : Nat) (m : Memory) :
    Memory.read (m.filter fun c => c.1 ≠ a) a = memReset := by
  induction m with
  | nil => rfl
  | cons c m ih => by_cases hc : c.1 = a <;> simp_all [Memory.read]

theorem Memory.read_filter_other {a b : Nat} (hab : b ≠ a) (m : Memory) :
    Memory.read (m.filter fun c => c.1 ≠ a) b = Memory.read m b := by
  induction m with
  | nil => rfl
  | cons c m ih =>
    by_cases hc : c.1 = a
    · have : c.1 ≠ b := fun h => hab (h ▸ hc)
      simp_all [Memory.read]
    · simp_all [Memory.read]

/-- A read after a write to the same address gives the value written. -/
@[simp] theorem Memory.read_write_same (m : Memory) (a : Nat) (v : Word) :
    Memory.read (Memory.write m a v) a = v := by
  by_cases hv : v = memReset
  · simp only [Memory.write, hv, if_true, Memory.read_filter_same]
  · simp only [Memory.write, hv, if_false]
    exact Memory.read_insert_same a v _ fun c hc => by simpa using (List.mem_filter.mp hc).2

/-- A write leaves every other address alone. -/
theorem Memory.read_write_other (m : Memory) {a b : Nat} (hab : b ≠ a) (v : Word) :
    Memory.read (Memory.write m a v) b = Memory.read m b := by
  by_cases hv : v = memReset
  · simp only [Memory.write, hv, if_true, Memory.read_filter_other hab]
  · simp only [Memory.write, hv, if_false, Memory.read_insert_other hab, Memory.read_filter_other hab]

theorem Memory.mem_insert {a : Nat} {v : Word} {m : Memory} {c : Nat × Word} :
    c ∈ Memory.insert a v m ↔ c = (a, v) ∨ c ∈ m := by
  induction m with
  | nil => simp [Memory.insert]
  | cons d m ih => by_cases hlt : a < d.1 <;> simp [Memory.insert, hlt, ih, or_left_comm]

theorem Memory.rising_cons {c : Nat × Word} {m : Memory} :
    Memory.rising (c :: m) = true ↔ (∀ d ∈ m, c.1 < d.1) ∧ Memory.rising m = true := by
  simp [Memory.rising]

theorem Memory.rising_filter (p : Nat × Word → Bool) {m : Memory} (h : Memory.rising m = true) :
    Memory.rising (m.filter p) = true := by
  induction m with
  | nil => rfl
  | cons c m ih =>
    obtain ⟨hc, hm⟩ := Memory.rising_cons.mp h
    by_cases hp : p c = true
    · rw [List.filter_cons_of_pos hp]
      exact Memory.rising_cons.mpr ⟨fun d hd => hc d (List.mem_filter.mp hd).1, ih hm⟩
    · rw [List.filter_cons_of_neg hp]
      exact ih hm

theorem Memory.rising_insert {a : Nat} {v : Word} {m : Memory} (ha : ∀ c ∈ m, c.1 ≠ a)
    (h : Memory.rising m = true) : Memory.rising (Memory.insert a v m) = true := by
  induction m with
  | nil => simp [Memory.insert, Memory.rising]
  | cons c m ih =>
    obtain ⟨hc, hm⟩ := Memory.rising_cons.mp h
    have hca : c.1 ≠ a := ha c (by simp)
    by_cases hlt : a < c.1
    · simp only [Memory.insert, hlt, if_true]
      refine Memory.rising_cons.mpr ⟨fun d hd => ?_, h⟩
      rcases List.mem_cons.mp hd with rfl | hd
      · exact hlt
      · exact lt_trans hlt (hc d hd)
    · simp only [Memory.insert, hlt, if_false]
      refine Memory.rising_cons.mpr ⟨fun d hd => ?_, ih (fun d hd => ha d (by simp [hd])) hm⟩
      rcases Memory.mem_insert.mp hd with rfl | hd
      · simp only; omega
      · exact hc d hd

theorem Memory.wf_iff {m : Memory} :
    Memory.wf m = true ↔ Memory.rising m = true ∧ ∀ c ∈ m, c.1 < memSize ∧ c.2 ≠ memReset := by
  simp [Memory.wf]

/-- A write inside the memory keeps the canonical form. -/
theorem Memory.wf_write {m : Memory} {a : Nat} (v : Word) (ha : a < memSize) (h : Memory.wf m = true) :
    Memory.wf (Memory.write m a v) = true := by
  obtain ⟨hr, hm⟩ := Memory.wf_iff.mp h
  have hf := Memory.rising_filter (fun c => c.1 ≠ a) hr
  refine Memory.wf_iff.mpr ?_
  by_cases hv : v = memReset
  · simp only [Memory.write, hv, if_true]
    exact ⟨hf, fun c hc => hm c (List.mem_filter.mp hc).1⟩
  · simp only [Memory.write, hv, if_false]
    refine ⟨Memory.rising_insert (fun c hc => by simpa using (List.mem_filter.mp hc).2) hf, fun c hc => ?_⟩
    rcases Memory.mem_insert.mp hc with rfl | hc
    · exact ⟨ha, hv⟩
    · exact hm c (List.mem_filter.mp hc).1

/-- A run of writes inside the memory keeps the canonical form. -/
theorem Memory.wf_writeFrom (vs : List Word) {m : Memory} {base : Nat} (hb : base + vs.length ≤ memSize)
    (h : Memory.wf m = true) : Memory.wf (Memory.writeFrom m base vs) = true := by
  induction vs generalizing m base with
  | nil => exact h
  | cons v vs ih =>
    simp only [List.length_cons] at hb
    exact ih (by omega) (Memory.wf_write v (by omega) h)

theorem Memory.read_writeFrom_below (vs : List Word) {m : Memory} {base a : Nat} (ha : a < base) :
    Memory.read (Memory.writeFrom m base vs) a = Memory.read m a := by
  induction vs generalizing m base with
  | nil => rfl
  | cons v vs ih =>
    simp only [Memory.writeFrom]
    rw [ih (by omega), Memory.read_write_other m (by omega) v]

theorem Memory.rising_filledFrom (fill : Word) (n base : Nat) :
    Memory.rising ((List.range' base n).map fun a => (a, fill)) = true := by
  induction n generalizing base with
  | zero => rfl
  | succ n ih =>
    rw [List.range'_succ, List.map_cons]
    refine Memory.rising_cons.mpr ⟨fun d hd => ?_, ih (base + 1)⟩
    obtain ⟨b, hb, rfl⟩ := List.mem_map.mp hd
    have := (List.mem_range'_1.mp hb).1
    simp only; omega

/-- A filled memory is in canonical form. -/
theorem Memory.wf_filled (fill : Word) : Memory.wf (Memory.filled fill) = true := by
  by_cases hf : fill = memReset
  · simp [Memory.filled, hf, Memory.wf, Memory.rising]
  · simp only [Memory.filled, hf, if_false]
    refine Memory.wf_iff.mpr ⟨?_, fun c hc => ?_⟩
    · rw [List.range_eq_range']
      exact Memory.rising_filledFrom fill memSize 0
    · obtain ⟨b, hb, rfl⟩ := List.mem_map.mp hc
      exact ⟨List.mem_range.mp hb, hf⟩

theorem Memory.length_readBlock (m : Memory) (base n : Nat) : (Memory.readBlock m base n).length = n := by
  simp [Memory.readBlock]

theorem Memory.getD_readBlock (m : Memory) (base : Nat) {n i : Nat} (hi : i < n) (d : Word) :
    (Memory.readBlock m base n).getD i d = Memory.read m (base + i) := by
  simp [Memory.readBlock, List.getD_eq_getElem?_getD, hi]

@[simp] theorem State.readMem_writeMem_same (s : State) (a : Addr) (v : Word) : (s.writeMem a v).readMem a = v := by
  simp [State.readMem, State.writeMem]

theorem State.readMem_writeMem_other (s : State) {a b : Addr} (h : b ≠ a) (v : Word) :
    (s.writeMem a v).readMem b = s.readMem b := by
  simp only [State.readMem, State.writeMem]
  exact Memory.read_write_other _ (fun hn => h (BitVec.eq_of_toNat_eq hn)) v

end Sys2Proof.Machine
end

