-- ==== Sys2Proof/Laws/Level.lean ====
section
/-! SUPPORT. The laws of one cache level: what a lookup, a touch and an install can do, and that they keep the level
well-formed. -/

namespace Sys2Proof.Machine

/-! ## Parameters and addresses -/

theorem legalLevel_iff {p : LevelParams} :
    legalLevel p = true ↔ 1 ≤ p.assoc ∧ 1 ≤ p.blockSize ∧ p.assoc * p.blockSize ≤ p.size
      ∧ p.size % (p.assoc * p.blockSize) = 0 ∧ memSize % p.blockSize = 0 := by
  simp [legalLevel, and_assoc]

theorem rowCount_pos {p : LevelParams} (h : legalLevel p = true) : 0 < rowCount p := by
  obtain ⟨ha, hb, hs, -, -⟩ := legalLevel_iff.mp h
  exact Nat.div_pos hs (Nat.mul_pos ha hb)

theorem rowOf_lt {p : LevelParams} (h : legalLevel p = true) (a : Addr) : rowOf p a < rowCount p :=
  Nat.mod_lt _ (rowCount_pos h)

theorem offsetOf_lt {p : LevelParams} (h : legalLevel p = true) (a : Addr) : offsetOf p a < p.blockSize :=
  Nat.mod_lt _ (legalLevel_iff.mp h).2.1

/-- A block is its row and its tag (44_cache_level.md R143). -/
theorem blockNumber_eq (p : LevelParams) (a : Addr) : tagOf p a * rowCount p + rowOf p a = blockNumber p a := by
  simp only [tagOf, rowOf, Nat.mul_comm (_ / _)]
  exact Nat.div_add_mod _ _

/-- An address is its block and its offset (R143, R145). -/
theorem blockBase_add_offset (p : LevelParams) (a : Addr) : blockBase p a + offsetOf p a = a.toNat := by
  simp only [blockBase, blockNumber, offsetOf, Nat.mul_comm (_ / _)]
  exact Nat.div_add_mod _ _

theorem tagOf_le_maxTag (p : LevelParams) (a : Addr) : tagOf p a ≤ maxTag p := by
  have : a.toNat ≤ 8191 := by have := a.isLt; omega
  exact Nat.div_le_div_right (Nat.div_le_div_right this)

/-! ## Choosing a way -/

theorem pickWay_mem {p : WayPick} {free : Nat} {c : List Nat} {w : Nat} (h : pickWay p free c = some w) : w ∈ c := by
  cases p with
  | lowest => exact List.mem_of_mem_head? h
  | any => exact List.mem_of_getElem? h

theorem pickWay_eq_none {p : WayPick} {free : Nat} {c : List Nat} : pickWay p free c = none ↔ c = [] := by
  cases p with
  | lowest => simp [pickWay]
  | any =>
    rcases c with _ | ⟨x, c⟩
    · simp [pickWay]
    · have : free % (x :: c).length < (x :: c).length := Nat.mod_lt _ (by simp)
      simp only [pickWay, reduceCtorEq, iff_false]
      rw [List.getElem?_eq_getElem this]
      simp

theorem Row.validAt_lt {r : Row} {w : Nat} (h : r.validAt w = true) : w < r.ways.length := by
  by_contra hn
  simp [Row.validAt, List.getElem?_eq_none (Nat.le_of_not_lt hn)] at h

theorem Row.validAt_iff {r : Row} {w : Nat} : r.validAt w = true ↔ ∃ y, r.ways[w]? = some y ∧ y.valid = true := by
  unfold Row.validAt
  cases r.ways[w]? <;> simp

theorem Row.matchesAt_iff {r : Row} {tag w : Nat} :
    r.matchesAt tag w = true ↔ ∃ y, r.ways[w]? = some y ∧ y.valid = true ∧ y.tag = tag := by
  unfold Row.matchesAt
  cases r.ways[w]? <;> simp

theorem Row.validAt_of_matchesAt {r : Row} {tag w : Nat} (h : r.matchesAt tag w = true) : r.validAt w = true := by
  obtain ⟨y, hy, hv, -⟩ := Row.matchesAt_iff.mp h
  exact Row.validAt_iff.mpr ⟨y, hy, hv⟩

theorem Row.mem_matching {r : Row} {tag w : Nat} : w ∈ r.matching tag ↔ r.matchesAt tag w = true := by
  simp only [Row.matching, List.mem_filter, List.mem_range]
  exact ⟨And.right, fun h => ⟨Row.validAt_lt (Row.validAt_of_matchesAt h), h⟩⟩

theorem Row.mem_free {r : Row} {w : Nat} : w ∈ r.free ↔ w < r.ways.length ∧ r.validAt w = false := by
  simp [Row.free]

/-- The head of an ascending filter of the indices is the least index that passes. -/
theorem head?_filter_range {p : Nat → Bool} {n w : Nat} :
    ((List.range n).filter p).head? = some w ↔ w < n ∧ p w = true ∧ ∀ v, v < w → p v = false := by
  rw [List.head?_filter, List.find?_range_eq_some]
  simp only [List.mem_range, Bool.not_eq_true']
  tauto

/-! ## Well-formed rows -/

theorem Row.wf_iff {p : LevelParams} {r : Row} :
    r.wf p = true ↔ r.ways.length = p.assoc ∧ r.recency.Nodup ∧ (∀ w, w ∈ r.recency ↔ r.validAt w = true)
      ∧ ∀ y ∈ r.ways, y.data.length = p.blockSize ∧ y.tag ≤ maxTag p := by
  simp only [Row.wf, Bool.and_eq_true, decide_eq_true_eq, List.all_eq_true, Bool.or_eq_true, Bool.not_eq_true',
    List.mem_range, List.contains_iff_mem]
  constructor
  · rintro ⟨⟨⟨⟨hl, hn⟩, hv⟩, hr⟩, hd⟩
    refine ⟨hl, hn, fun w => ⟨hv w, fun h => ?_⟩, hd⟩
    rcases hr w (hl ▸ Row.validAt_lt h) with h' | h'
    · simp [h] at h'
    · exact h'
  · rintro ⟨hl, hn, hv, hd⟩
    refine ⟨⟨⟨⟨hl, hn⟩, fun w => (hv w).mp⟩, fun w _ => ?_⟩, hd⟩
    cases h : r.validAt w
    · exact .inl rfl
    · exact .inr ((hv w).mpr h)

theorem CacheLevel.wf_iff {l : CacheLevel} :
    l.wf = true ↔ legalLevel l.params = true ∧ l.rows.length = rowCount l.params
      ∧ ∀ r ∈ l.rows, r.wf l.params = true := by
  simp [CacheLevel.wf, and_assoc]

/-- The recency list of a well-formed row is no longer than the associativity (R153). -/
theorem Row.length_recency_le {p : LevelParams} {r : Row} (h : r.wf p = true) : r.recency.length ≤ p.assoc := by
  obtain ⟨hl, hn, hv, -⟩ := Row.wf_iff.mp h
  have hsub : r.recency ⊆ List.range p.assoc := fun w hw =>
    List.mem_range.mpr (hl ▸ Row.validAt_lt ((hv w).mp hw))
  simpa using (hn.subperm hsub).length_le

/-! ## Touch (R149) -/

theorem Row.mem_recency_touch {r : Row} {w v : Nat} : v ∈ (r.touch w).recency ↔ v = w ∨ v ∈ r.recency := by
  by_cases h : v = w <;> simp [Row.touch, h]

theorem Row.nodup_touch {r : Row} (w : Nat) (h : r.recency.Nodup) : (r.touch w).recency.Nodup := by
  simp only [Row.touch]
  refine List.Nodup.append (h.filter _) (by simp) ?_
  intro v hv hw
  simp only [List.mem_singleton] at hw
  simp [hw] at hv

@[simp] theorem Row.touch_ways (r : Row) (w : Nat) : (r.touch w).ways = r.ways := rfl

@[simp] theorem Row.validAt_touch (r : Row) (w v : Nat) : (r.touch w).validAt v = r.validAt v := rfl

@[simp] theorem Row.matchesAt_touch (r : Row) (w tag v : Nat) :
    (r.touch w).matchesAt tag v = r.matchesAt tag v := rfl

@[simp] theorem Row.matching_touch (r : Row) (w tag : Nat) : (r.touch w).matching tag = r.matching tag := rfl

theorem Row.wf_touch {p : LevelParams} {r : Row} {w : Nat} (h : r.wf p = true) (hw : r.validAt w = true) :
    (r.touch w).wf p = true := by
  obtain ⟨hl, hn, hv, hd⟩ := Row.wf_iff.mp h
  refine Row.wf_iff.mpr ⟨hl, Row.nodup_touch w hn, fun v => ?_, hd⟩
  rw [Row.mem_recency_touch, hv, Row.validAt_touch]
  exact ⟨fun h => h.elim (fun e => e ▸ hw) id, .inr⟩

/-! ## Choose, put, install (R150, R151) -/

/-- A chosen way is an invalid way, or the front of the recency list of a row that has no invalid way. -/
theorem Row.choose_cases {r : Row} {pick : WayPick} {free w : Nat} (h : r.choose pick free = some w) :
    (w < r.ways.length ∧ r.validAt w = false) ∨ (r.free = [] ∧ r.recency.head? = some w) := by
  unfold Row.choose at h
  split at h
  · rename_i v hv
    cases h
    exact .inl (Row.mem_free.mp (pickWay_mem hv))
  · rename_i hv
    exact .inr ⟨pickWay_eq_none.mp hv, h⟩

/-- In a well-formed row there is always a way to install into. -/
theorem Row.choose_isSome {p : LevelParams} {r : Row} (pick : WayPick) (free : Nat) (hp : 1 ≤ p.assoc)
    (h : r.wf p = true) : ∃ w, r.choose pick free = some w ∧ w < p.assoc := by
  obtain ⟨hl, -, hv, -⟩ := Row.wf_iff.mp h
  cases hc : r.choose pick free with
  | some w =>
    refine ⟨w, rfl, ?_⟩
    rcases Row.choose_cases hc with ⟨hw, -⟩ | ⟨-, hw⟩
    · exact hl ▸ hw
    · exact hl ▸ Row.validAt_lt ((hv w).mp (List.mem_of_mem_head? hw))
  | none =>
    unfold Row.choose at hc
    split at hc
    · cases hc
    · rename_i hn
      have hfree := pickWay_eq_none.mp hn
      have hrec : r.recency = [] := by simpa using hc
      have h0 : (0 : Nat) ∈ r.free := by
        refine Row.mem_free.mpr ⟨by omega, ?_⟩
        cases h0 : r.validAt 0
        · rfl
        · exact absurd ((hv 0).mpr h0) (by simp [hrec])
      exact absurd h0 (by simp [hfree])

theorem Row.getElem?_put {r : Row} {w v tag : Nat} {data : List Word} (hw : w < r.ways.length) :
    (r.put w tag data).ways[v]? = if v = w then some ⟨true, tag, data⟩ else r.ways[v]? := by
  by_cases h : v = w
  · simp [Row.put, h, hw]
  · simp [Row.put, h, Ne.symm h]

theorem Row.validAt_put {r : Row} {w v tag : Nat} {data : List Word} (hw : w < r.ways.length) :
    (r.put w tag data).validAt v = (decide (v = w) || r.validAt v) := by
  unfold Row.validAt
  rw [Row.getElem?_put hw]
  by_cases h : v = w <;> simp [h]

theorem Row.wf_put {p : LevelParams} {r : Row} {w tag : Nat} {data : List Word} (h : r.wf p = true)
    (hw : w < p.assoc) (ht : tag ≤ maxTag p) (hd : data.length = p.blockSize) :
    (r.put w tag data).wf p = true := by
  obtain ⟨hl, hn, hv, hall⟩ := Row.wf_iff.mp h
  have hw' : w < r.ways.length := hl ▸ hw
  refine Row.wf_iff.mpr ⟨by simp [Row.put, hl], Row.nodup_touch w hn, fun v => ?_, fun y hy => ?_⟩
  · rw [Row.validAt_put hw']
    exact Row.mem_recency_touch.trans (by simp [hv])
  · rcases List.mem_or_eq_of_mem_set hy with hy | rfl
    · exact hall y hy
    · exact ⟨hd, ht⟩

theorem Row.wf_install {p : LevelParams} {r : Row} {pick : WayPick} {free tag : Nat} {data : List Word}
    (hp : 1 ≤ p.assoc) (h : r.wf p = true) (ht : tag ≤ maxTag p) (hd : data.length = p.blockSize) :
    (r.install pick free tag data).wf p = true := by
  obtain ⟨w, hc, hw⟩ := Row.choose_isSome pick free hp h
  simp only [Row.install, hc]
  exact Row.wf_put h hw ht hd

/-! ## The operations of a level -/

@[simp] theorem CacheLevel.touch_params (l : CacheLevel) (a : Addr) (w : Nat) : (l.touch a w).params = l.params := rfl

@[simp] theorem CacheLevel.install_params (l : CacheLevel) (pick : WayPick) (free : Nat) (m : Memory) (a : Addr) :
    (l.install pick free m a).params = l.params := rfl

@[simp] theorem CacheLevel.empty_params (p : LevelParams) : (CacheLevel.empty p).params = p := rfl

theorem CacheLevel.rowAt_touch (l : CacheLevel) (a : Addr) (w : Nat) :
    (l.touch a w).rowAt a = (l.rowAt a).map fun r => r.touch w := by
  simp [CacheLevel.rowAt, CacheLevel.touch]

theorem CacheLevel.rowAt_install (l : CacheLevel) (pick : WayPick) (free : Nat) (m : Memory) (a : Addr) :
    (l.install pick free m a).rowAt a = (l.rowAt a).map fun r =>
      r.install pick free (tagOf l.params a) (m.readBlock (blockBase l.params a) l.params.blockSize) := by
  simp [CacheLevel.rowAt, CacheLevel.install]

theorem CacheLevel.rowAt_isSome {l : CacheLevel} (h : l.wf = true) (a : Addr) :
    ∃ r, l.rowAt a = some r ∧ r.wf l.params = true := by
  obtain ⟨hp, hl, hr⟩ := CacheLevel.wf_iff.mp h
  have hlt : rowOf l.params a < l.rows.length := hl ▸ rowOf_lt hp a
  exact ⟨l.rows[rowOf l.params a], List.getElem?_eq_getElem hlt, hr _ (List.getElem_mem hlt)⟩

/-- A hit names a valid way of the address's row whose tag matches (R146). -/
theorem CacheLevel.lookup_some {l : CacheLevel} {pick : WayPick} {free w : Nat} {a : Addr}
    (h : l.lookup pick free a = some w) :
    ∃ r, l.rowAt a = some r ∧ r.matchesAt (tagOf l.params a) w = true := by
  unfold CacheLevel.lookup at h
  split at h
  · rename_i r hr
    exact ⟨r, hr, Row.mem_matching.mp (pickWay_mem h)⟩
  · cases h

/-- A touch does not change what a lookup finds. -/
theorem CacheLevel.lookup_touch (l : CacheLevel) (pick : WayPick) (free : Nat) (a : Addr) (w : Nat) :
    (l.touch a w).lookup pick free a = l.lookup pick free a := by
  simp only [CacheLevel.lookup, CacheLevel.rowAt_touch, CacheLevel.touch_params]
  cases l.rowAt a <;> simp

/-- After an install a lookup of the address hits: the `HIT` after a `MISS` of R158, for every level. -/
theorem CacheLevel.lookup_install_hits {l : CacheLevel} (h : l.wf = true) (pick scan : WayPick) (free free' : Nat)
    (m : Memory) (a : Addr) : ∃ w, (l.install pick free m a).lookup scan free' a = some w := by
  obtain ⟨r, hr, hwf⟩ := CacheLevel.rowAt_isSome h a
  obtain ⟨w, hc, hw⟩ := Row.choose_isSome pick free (legalLevel_iff.mp (CacheLevel.wf_iff.mp h).1).1 hwf
  have hri := l.rowAt_install pick free m a
  simp only [hr, Option.map_some, Row.install, hc] at hri
  have hm : w ∈ (r.put w (tagOf l.params a) (m.readBlock (blockBase l.params a) l.params.blockSize)).matching
      (tagOf l.params a) :=
    Row.mem_matching.mpr (Row.matchesAt_iff.mpr
      ⟨_, by rw [Row.getElem?_put ((Row.wf_iff.mp hwf).1 ▸ hw), if_pos rfl], rfl, rfl⟩)
  cases hl : (l.install pick free m a).lookup scan free' a with
  | some v => exact ⟨v, rfl⟩
  | none =>
    simp only [CacheLevel.lookup, hri, CacheLevel.install_params, pickWay_eq_none] at hl
    rw [hl] at hm
    cases hm

/-- In a direct-mapped level an install of another block into the row of an address evicts the address's block: the
evicting `MISS` of R158. -/
theorem CacheLevel.lookup_install_evicts {l : CacheLevel} (h : l.wf = true) (hA : l.params.assoc = 1)
    (pick scan : WayPick) (free free' : Nat) (m : Memory) {a b : Addr} (hrow : rowOf l.params a = rowOf l.params b)
    (htag : tagOf l.params a ≠ tagOf l.params b) : (l.install pick free m b).lookup scan free' a = none := by
  obtain ⟨r, hr, hwf⟩ := CacheLevel.rowAt_isSome h b
  obtain ⟨w, hc, hw⟩ := Row.choose_isSome pick free (legalLevel_iff.mp (CacheLevel.wf_iff.mp h).1).1 hwf
  have hri := l.rowAt_install pick free m b
  simp only [hr, Option.map_some, Row.install, hc] at hri
  have hlen : r.ways.length = 1 := (Row.wf_iff.mp hwf).1.trans hA
  cases hl : (l.install pick free m b).lookup scan free' a with
  | none => rfl
  | some v =>
    obtain ⟨q, hq, hmatch⟩ := CacheLevel.lookup_some hl
    have hab : (l.install pick free m b).rowAt a = (l.install pick free m b).rowAt b := by
      simp [CacheLevel.rowAt, hrow]
    obtain rfl := Option.some.inj (hq.symm.trans (hab.trans hri))
    have hv := Row.validAt_lt (Row.validAt_of_matchesAt hmatch)
    obtain ⟨y, hy, -, ht⟩ := Row.matchesAt_iff.mp hmatch
    have hvw : v = w := by simp [Row.put] at hv; omega
    rw [Row.getElem?_put (by omega), if_pos hvw] at hy
    cases hy
    exact absurd ht.symm htag

/-- Every row after a modification of one row is an old row or the modified one. -/
theorem mem_modify {α : Type} {f : α → α} {xs : List α} {k : Nat} {y : α} (h : y ∈ xs.modify k f) :
    y ∈ xs ∨ ∃ x, xs[k]? = some x ∧ y = f x := by
  obtain ⟨i, hi⟩ := List.getElem?_of_mem h
  rw [List.getElem?_modify] at hi
  by_cases hk : k = i
  · subst hk
    cases hx : xs[k]? with
    | none => simp [hx] at hi
    | some x =>
      refine .inr ⟨x, rfl, ?_⟩
      simpa [hx] using hi.symm
  · simp only [hk, if_false] at hi
    refine .inl (List.mem_of_getElem? (i := i) ?_)
    simpa using hi

theorem CacheLevel.wf_touch {l : CacheLevel} {a : Addr} {w : Nat} (h : l.wf = true)
    (hw : ∀ r, l.rowAt a = some r → r.validAt w = true) : (l.touch a w).wf = true := by
  obtain ⟨hp, hl, hr⟩ := CacheLevel.wf_iff.mp h
  refine CacheLevel.wf_iff.mpr ⟨hp, by simpa [CacheLevel.touch] using hl, fun q hq => ?_⟩
  rcases mem_modify hq with hq | ⟨r, hk, rfl⟩
  · exact hr q hq
  · exact Row.wf_touch (hr r (List.mem_of_getElem? hk)) (hw r hk)

theorem CacheLevel.wf_install {l : CacheLevel} (pick : WayPick) (free : Nat) (m : Memory) (a : Addr)
    (h : l.wf = true) : (l.install pick free m a).wf = true := by
  obtain ⟨hp, hl, hr⟩ := CacheLevel.wf_iff.mp h
  refine CacheLevel.wf_iff.mpr ⟨hp, by simpa [CacheLevel.install] using hl, fun q hq => ?_⟩
  rcases mem_modify hq with hq | ⟨r, hk, rfl⟩
  · exact hr q hq
  · exact Row.wf_install (legalLevel_iff.mp hp).1 (hr r (List.mem_of_getElem? hk)) (tagOf_le_maxTag _ _)
      (Memory.length_readBlock _ _ _)

/-- A level at reset is well-formed (10_state.md R36). -/
theorem CacheLevel.wf_empty {p : LevelParams} (h : legalLevel p = true) : (CacheLevel.empty p).wf = true := by
  refine CacheLevel.wf_iff.mpr ⟨h, by simp [CacheLevel.empty], fun r hr => ?_⟩
  obtain rfl : r = emptyRow p := List.eq_of_mem_replicate hr
  refine Row.wf_iff.mpr ⟨by simp [emptyRow], by simp [emptyRow], fun w => ?_, fun y hy => ?_⟩
  · simp only [emptyRow, Row.validAt_iff, List.not_mem_nil, false_iff, not_exists, not_and]
    intro y hy
    obtain rfl := List.eq_of_mem_replicate (List.mem_of_getElem? hy)
    simp [emptyWay]
  · obtain rfl := List.eq_of_mem_replicate hy
    simp [emptyWay]

end Sys2Proof.Machine
end

