-- ==== Sys2Proof/Laws/State.lean ====
section
/-! SUPPORT. One lemma per field per update of State, so that no later proof unfolds a record update. -/

namespace Sys2Proof.Machine

/-! ### After a register write (10_state.md R22) -/

@[simp] theorem State.writeReg_pc (s : State) (r : Reg) (v : Word) :
    (s.writeReg r v).pc = s.pc := rfl
@[simp] theorem State.writeReg_regs (s : State) (r : Reg) (v : Word) :
    (s.writeReg r v).regs = Regs.write s.regs r v := rfl
@[simp] theorem State.writeReg_mem (s : State) (r : Reg) (v : Word) :
    (s.writeReg r v).mem = s.mem := rfl
@[simp] theorem State.writeReg_runState (s : State) (r : Reg) (v : Word) :
    (s.writeReg r v).runState = s.runState := rfl
@[simp] theorem State.writeReg_l1 (s : State) (r : Reg) (v : Word) :
    (s.writeReg r v).l1 = s.l1 := rfl
@[simp] theorem State.writeReg_l2 (s : State) (r : Reg) (v : Word) :
    (s.writeReg r v).l2 = s.l2 := rfl
@[simp] theorem State.writeReg_trace (s : State) (r : Reg) (v : Word) :
    (s.writeReg r v).trace = s.trace := rfl
@[simp] theorem State.writeReg_opts (s : State) (r : Reg) (v : Word) :
    (s.writeReg r v).opts = s.opts := rfl
@[simp] theorem State.writeReg_draws (s : State) (r : Reg) (v : Word) :
    (s.writeReg r v).draws = s.draws := rfl

/-! ### After `pc <- t` (00_scope.md R10) -/

@[simp] theorem State.setPc_pc (s : State) (t : Int) :
    (s.setPc t).pc = BitVec.ofInt 13 t := rfl
@[simp] theorem State.setPc_regs (s : State) (t : Int) :
    (s.setPc t).regs = s.regs := rfl
@[simp] theorem State.setPc_mem (s : State) (t : Int) :
    (s.setPc t).mem = s.mem := rfl
@[simp] theorem State.setPc_runState (s : State) (t : Int) :
    (s.setPc t).runState = s.runState := rfl
@[simp] theorem State.setPc_l1 (s : State) (t : Int) :
    (s.setPc t).l1 = s.l1 := rfl
@[simp] theorem State.setPc_l2 (s : State) (t : Int) :
    (s.setPc t).l2 = s.l2 := rfl
@[simp] theorem State.setPc_trace (s : State) (t : Int) :
    (s.setPc t).trace = s.trace := rfl
@[simp] theorem State.setPc_opts (s : State) (t : Int) :
    (s.setPc t).opts = s.opts := rfl
@[simp] theorem State.setPc_draws (s : State) (t : Int) :
    (s.setPc t).draws = s.draws := rfl

/-! ### After `incr_pc(n)` (10_state.md R25) -/

@[simp] theorem State.incrPc_pc (s : State) (n : Int) :
    (s.incrPc n).pc = BitVec.ofInt 13 ((s.pc.toNat : Int) + n) := rfl
@[simp] theorem State.incrPc_regs (s : State) (n : Int) :
    (s.incrPc n).regs = s.regs := rfl
@[simp] theorem State.incrPc_mem (s : State) (n : Int) :
    (s.incrPc n).mem = s.mem := rfl
@[simp] theorem State.incrPc_runState (s : State) (n : Int) :
    (s.incrPc n).runState = s.runState := rfl
@[simp] theorem State.incrPc_l1 (s : State) (n : Int) :
    (s.incrPc n).l1 = s.l1 := rfl
@[simp] theorem State.incrPc_l2 (s : State) (n : Int) :
    (s.incrPc n).l2 = s.l2 := rfl
@[simp] theorem State.incrPc_trace (s : State) (n : Int) :
    (s.incrPc n).trace = s.trace := rfl
@[simp] theorem State.incrPc_opts (s : State) (n : Int) :
    (s.incrPc n).opts = s.opts := rfl
@[simp] theorem State.incrPc_draws (s : State) (n : Int) :
    (s.incrPc n).draws = s.draws := rfl

/-! ### After `M[a] <- v` -/

@[simp] theorem State.writeMem_pc (s : State) (a : Addr) (v : Word) :
    (s.writeMem a v).pc = s.pc := rfl
@[simp] theorem State.writeMem_regs (s : State) (a : Addr) (v : Word) :
    (s.writeMem a v).regs = s.regs := rfl
@[simp] theorem State.writeMem_mem (s : State) (a : Addr) (v : Word) :
    (s.writeMem a v).mem = Memory.write s.mem a.toNat v := rfl
@[simp] theorem State.writeMem_runState (s : State) (a : Addr) (v : Word) :
    (s.writeMem a v).runState = s.runState := rfl
@[simp] theorem State.writeMem_l1 (s : State) (a : Addr) (v : Word) :
    (s.writeMem a v).l1 = s.l1 := rfl
@[simp] theorem State.writeMem_l2 (s : State) (a : Addr) (v : Word) :
    (s.writeMem a v).l2 = s.l2 := rfl
@[simp] theorem State.writeMem_trace (s : State) (a : Addr) (v : Word) :
    (s.writeMem a v).trace = s.trace := rfl
@[simp] theorem State.writeMem_opts (s : State) (a : Addr) (v : Word) :
    (s.writeMem a v).opts = s.opts := rfl
@[simp] theorem State.writeMem_draws (s : State) (a : Addr) (v : Word) :
    (s.writeMem a v).draws = s.draws := rfl

/-! ### After a halt (42_control.md R123) -/

@[simp] theorem State.halt_pc (s : State) :
    (s.halt).pc = s.pc := rfl
@[simp] theorem State.halt_regs (s : State) :
    (s.halt).regs = s.regs := rfl
@[simp] theorem State.halt_mem (s : State) :
    (s.halt).mem = s.mem := rfl
@[simp] theorem State.halt_runState (s : State) :
    (s.halt).runState = .halted := rfl
@[simp] theorem State.halt_l1 (s : State) :
    (s.halt).l1 = s.l1 := rfl
@[simp] theorem State.halt_l2 (s : State) :
    (s.halt).l2 = s.l2 := rfl
@[simp] theorem State.halt_trace (s : State) :
    (s.halt).trace = s.trace := rfl
@[simp] theorem State.halt_opts (s : State) :
    (s.halt).opts = s.opts := rfl
@[simp] theorem State.halt_draws (s : State) :
    (s.halt).draws = s.draws := rfl

/-! ### After `emit E` (46_interfaces_trace.md R195) -/

@[simp] theorem State.emit_pc (s : State) (e : Event) :
    (s.emit e).pc = s.pc := rfl
@[simp] theorem State.emit_regs (s : State) (e : Event) :
    (s.emit e).regs = s.regs := rfl
@[simp] theorem State.emit_mem (s : State) (e : Event) :
    (s.emit e).mem = s.mem := rfl
@[simp] theorem State.emit_runState (s : State) (e : Event) :
    (s.emit e).runState = s.runState := rfl
@[simp] theorem State.emit_l1 (s : State) (e : Event) :
    (s.emit e).l1 = s.l1 := rfl
@[simp] theorem State.emit_l2 (s : State) (e : Event) :
    (s.emit e).l2 = s.l2 := rfl
@[simp] theorem State.emit_trace (s : State) (e : Event) :
    (s.emit e).trace = s.trace ++ [e] := rfl
@[simp] theorem State.emit_opts (s : State) (e : Event) :
    (s.emit e).opts = s.opts := rfl
@[simp] theorem State.emit_draws (s : State) (e : Event) :
    (s.emit e).draws = s.draws := rfl

/-! ### After the count of accesses (log 12) -/

@[simp] theorem State.countAccess_pc (s : State) :
    (s.countAccess).pc = s.pc := rfl
@[simp] theorem State.countAccess_regs (s : State) :
    (s.countAccess).regs = s.regs := rfl
@[simp] theorem State.countAccess_mem (s : State) :
    (s.countAccess).mem = s.mem := rfl
@[simp] theorem State.countAccess_runState (s : State) :
    (s.countAccess).runState = s.runState := rfl
@[simp] theorem State.countAccess_l1 (s : State) :
    (s.countAccess).l1 = s.l1 := rfl
@[simp] theorem State.countAccess_l2 (s : State) :
    (s.countAccess).l2 = s.l2 := rfl
@[simp] theorem State.countAccess_trace (s : State) :
    (s.countAccess).trace = s.trace := rfl
@[simp] theorem State.countAccess_opts (s : State) :
    (s.countAccess).opts = s.opts := rfl
@[simp] theorem State.countAccess_draws (s : State) :
    (s.countAccess).draws = s.draws + 1 := rfl

/-! ### After the exception (60_exceptions.md R210) -/

@[simp] theorem State.raiseInvalidInstruction_pc (s : State) (w : Word) :
    (s.raiseInvalidInstruction w).pc = s.pc := rfl
@[simp] theorem State.raiseInvalidInstruction_regs (s : State) (w : Word) :
    (s.raiseInvalidInstruction w).regs = s.regs := rfl
@[simp] theorem State.raiseInvalidInstruction_mem (s : State) (w : Word) :
    (s.raiseInvalidInstruction w).mem = s.mem := rfl
@[simp] theorem State.raiseInvalidInstruction_runState (s : State) (w : Word) :
    (s.raiseInvalidInstruction w).runState = s.runState := rfl
@[simp] theorem State.raiseInvalidInstruction_l1 (s : State) (w : Word) :
    (s.raiseInvalidInstruction w).l1 = s.l1 := rfl
@[simp] theorem State.raiseInvalidInstruction_l2 (s : State) (w : Word) :
    (s.raiseInvalidInstruction w).l2 = s.l2 := rfl
@[simp] theorem State.raiseInvalidInstruction_trace (s : State) (w : Word) :
    (s.raiseInvalidInstruction w).trace = s.trace ++ [.invalidInstruction s.pc w] := rfl
@[simp] theorem State.raiseInvalidInstruction_opts (s : State) (w : Word) :
    (s.raiseInvalidInstruction w).opts = s.opts := rfl
@[simp] theorem State.raiseInvalidInstruction_draws (s : State) (w : Word) :
    (s.raiseInvalidInstruction w).draws = s.draws := rfl

/-! ### After a touch at a level (44_cache_level.md R149) -/

@[simp] theorem State.touchLevel_pc (s : State) (n : LevelName) (a : Addr) (w : Nat) :
    (s.touchLevel n a w).pc = s.pc := rfl
@[simp] theorem State.touchLevel_regs (s : State) (n : LevelName) (a : Addr) (w : Nat) :
    (s.touchLevel n a w).regs = s.regs := rfl
@[simp] theorem State.touchLevel_mem (s : State) (n : LevelName) (a : Addr) (w : Nat) :
    (s.touchLevel n a w).mem = s.mem := rfl
@[simp] theorem State.touchLevel_runState (s : State) (n : LevelName) (a : Addr) (w : Nat) :
    (s.touchLevel n a w).runState = s.runState := rfl
@[simp] theorem State.touchLevel_opts (s : State) (n : LevelName) (a : Addr) (w : Nat) :
    (s.touchLevel n a w).opts = s.opts := rfl
@[simp] theorem State.touchLevel_draws (s : State) (n : LevelName) (a : Addr) (w : Nat) :
    (s.touchLevel n a w).draws = s.draws := rfl

/-! ### After an install at a level (44_cache_level.md R151) -/

@[simp] theorem State.installLevel_pc (s : State) (n : LevelName) (a : Addr) :
    (s.installLevel n a).pc = s.pc := rfl
@[simp] theorem State.installLevel_regs (s : State) (n : LevelName) (a : Addr) :
    (s.installLevel n a).regs = s.regs := rfl
@[simp] theorem State.installLevel_mem (s : State) (n : LevelName) (a : Addr) :
    (s.installLevel n a).mem = s.mem := rfl
@[simp] theorem State.installLevel_runState (s : State) (n : LevelName) (a : Addr) :
    (s.installLevel n a).runState = s.runState := rfl
@[simp] theorem State.installLevel_opts (s : State) (n : LevelName) (a : Addr) :
    (s.installLevel n a).opts = s.opts := rfl
@[simp] theorem State.installLevel_draws (s : State) (n : LevelName) (a : Addr) :
    (s.installLevel n a).draws = s.draws := rfl

/-! ### After one level's part of a store (45_cache_hierarchy.md R176) -/

@[simp] theorem State.storeLevel_pc (s : State) (n : LevelName) (a : Addr) :
    (s.storeLevel n a).pc = s.pc := rfl
@[simp] theorem State.storeLevel_regs (s : State) (n : LevelName) (a : Addr) :
    (s.storeLevel n a).regs = s.regs := rfl
@[simp] theorem State.storeLevel_mem (s : State) (n : LevelName) (a : Addr) :
    (s.storeLevel n a).mem = s.mem := rfl
@[simp] theorem State.storeLevel_runState (s : State) (n : LevelName) (a : Addr) :
    (s.storeLevel n a).runState = s.runState := rfl
@[simp] theorem State.storeLevel_opts (s : State) (n : LevelName) (a : Addr) :
    (s.storeLevel n a).opts = s.opts := rfl
@[simp] theorem State.storeLevel_draws (s : State) (n : LevelName) (a : Addr) :
    (s.storeLevel n a).draws = s.draws := rfl

/-! ### The levels after an operation on a level (44_cache_level.md R156) -/

@[simp] theorem State.level?_one (s : State) : s.level? 1 = some s.l1 := rfl

@[simp] theorem State.level?_two (s : State) : s.level? 2 = s.l2 := rfl

@[simp] theorem State.touchLevel_L1_l1 (s : State) (a : Addr) (w : Nat) :
    (s.touchLevel .L1 a w).l1 = s.l1.touch a w := rfl

@[simp] theorem State.touchLevel_L1_l2 (s : State) (a : Addr) (w : Nat) : (s.touchLevel .L1 a w).l2 = s.l2 := rfl

@[simp] theorem State.touchLevel_L1_trace (s : State) (a : Addr) (w : Nat) :
    (s.touchLevel .L1 a w).trace = s.trace := rfl

@[simp] theorem State.touchLevel_L2_l1 (s : State) (a : Addr) (w : Nat) : (s.touchLevel .L2 a w).l1 = s.l1 := rfl

@[simp] theorem State.touchLevel_L2_l2 (s : State) (a : Addr) (w : Nat) :
    (s.touchLevel .L2 a w).l2 = s.l2.map fun l => l.touch a w := rfl

theorem State.touchLevel_L2_trace {s : State} {l : CacheLevel} (h : s.l2 = some l) (a : Addr) (w : Nat) :
    (s.touchLevel .L2 a w).trace = s.trace := by
  simp [State.touchLevel, State.onLevel, LevelName.number, h]

@[simp] theorem State.installLevel_L1_l1 (s : State) (a : Addr) :
    (s.installLevel .L1 a).l1
      = s.l1.install s.opts.freeWayPick (Config.freeInstallWay .L1 s.draws) s.mem a := rfl

@[simp] theorem State.installLevel_L1_l2 (s : State) (a : Addr) : (s.installLevel .L1 a).l2 = s.l2 := rfl

@[simp] theorem State.installLevel_L1_trace (s : State) (a : Addr) : (s.installLevel .L1 a).trace = s.trace := rfl

@[simp] theorem State.installLevel_L2_l1 (s : State) (a : Addr) : (s.installLevel .L2 a).l1 = s.l1 := rfl

@[simp] theorem State.installLevel_L2_l2 (s : State) (a : Addr) :
    (s.installLevel .L2 a).l2
      = s.l2.map fun l => l.install s.opts.freeWayPick (Config.freeInstallWay .L2 s.draws) s.mem a := rfl

theorem State.installLevel_L2_trace {s : State} {l : CacheLevel} (h : s.l2 = some l) (a : Addr) :
    (s.installLevel .L2 a).trace = s.trace := by
  simp [State.installLevel, State.onLevel, LevelName.number, h]

@[simp] theorem State.storeLevel_l1 (s : State) (n : LevelName) (a : Addr) :
    (s.storeLevel n a).l1 = (s.installLevel n a).l1 := rfl

@[simp] theorem State.storeLevel_l2 (s : State) (n : LevelName) (a : Addr) :
    (s.storeLevel n a).l2 = (s.installLevel n a).l2 := rfl

@[simp] theorem State.storeLevel_trace (s : State) (n : LevelName) (a : Addr) :
    (s.storeLevel n a).trace = (s.installLevel n a).trace ++ [s.cacheEvent n .sw a] := rfl

/-- A configured level is L1 or L2. -/
theorem State.level?_cases {s : State} {n : Nat} {l : CacheLevel} (h : s.level? n = some l) :
    (n = 1 ∧ l = s.l1) ∨ (n = 2 ∧ s.l2 = some l) := by
  unfold State.level? at h
  split at h
  · exact .inl ⟨rfl, (Option.some.inj h).symm⟩
  · exact .inr ⟨rfl, h⟩
  · cases h

/-! ### Operations that read a level (44_cache_level.md R156) -/

theorem State.queryLevel_configured {α : Type} {s : State} {n : Nat} {l : CacheLevel} (h : s.level? n = some l)
    (f : CacheLevel → α) (absent : α) : s.queryLevel n f absent = (f l, s) := by
  simp [State.queryLevel, h]

theorem State.queryLevel_absent {α : Type} {s : State} {n : Nat} (h : s.level? n = none)
    (f : CacheLevel → α) (absent : α) : s.queryLevel n f absent = (absent, s.emit (.invalidCacheSelector n)) := by
  simp [State.queryLevel, h]

@[simp] theorem State.lookup_L1 (s : State) (a : Addr) : s.lookup .L1 a = (s.lookupLevel .L1 a, s) := rfl

theorem State.lookup_L2 {s : State} {l : CacheLevel} (h : s.l2 = some l) (a : Addr) :
    s.lookup .L2 a = (s.lookupLevel .L2 a, s) := by
  simp [State.lookupLevel, State.lookup, LevelName.number, State.queryLevel, h]

@[simp] theorem State.read_L1 (s : State) (a : Addr) (w : Nat) : s.read .L1 a w = (s.readLevel .L1 a w, s) := rfl

theorem State.read_L2 {s : State} {l : CacheLevel} (h : s.l2 = some l) (a : Addr) (w : Nat) :
    s.read .L2 a w = (s.readLevel .L2 a w, s) := by
  simp [State.readLevel, State.read, LevelName.number, State.queryLevel, h]

@[simp] theorem State.readLevel_L1 (s : State) (a : Addr) (w : Nat) : s.readLevel .L1 a w = s.l1.readWay a w := rfl

theorem State.readLevel_L2 {s : State} {l : CacheLevel} (h : s.l2 = some l) (a : Addr) (w : Nat) :
    s.readLevel .L2 a w = l.readWay a w := by
  simp [State.readLevel, State.read, LevelName.number, State.queryLevel, h]

theorem State.lookupLevel_L1 (s : State) (a : Addr) :
    s.lookupLevel .L1 a = s.l1.lookup s.opts.hitScan (Config.freeHitWay .L1 s.draws) a := rfl

theorem State.lookupLevel_L2 {s : State} {l : CacheLevel} (h : s.l2 = some l) (a : Addr) :
    s.lookupLevel .L2 a = l.lookup s.opts.hitScan (Config.freeHitWay .L2 s.draws) a := by
  simp [State.lookupLevel, State.lookup, LevelName.number, State.queryLevel, h]

/-- An event changes no answer of a level. -/
@[simp] theorem State.lookupLevel_emit (s : State) (e : Event) (n : LevelName) (a : Addr) :
    (s.emit e).lookupLevel n a = s.lookupLevel n a := by
  cases n
  · rfl
  · cases h : s.l2 with
    | none => simp [State.lookupLevel, State.lookup, LevelName.number, State.queryLevel, h]
    | some l => exact (State.lookupLevel_L2 (by simpa using h) a).trans (State.lookupLevel_L2 h a).symm

@[simp] theorem State.readLevel_emit (s : State) (e : Event) (n : LevelName) (a : Addr) (w : Nat) :
    (s.emit e).readLevel n a w = s.readLevel n a w := by
  cases n
  · rfl
  · cases h : s.l2 with
    | none => simp [State.readLevel, State.read, LevelName.number, State.queryLevel, h]
    | some l => exact (State.readLevel_L2 (by simpa using h) a w).trans (State.readLevel_L2 h a w).symm

@[simp] theorem State.cacheEvent_emit (s : State) (e : Event) (n : LevelName) (st : CacheStatus) (a : Addr) :
    (s.emit e).cacheEvent n st a = s.cacheEvent n st a := by
  cases n <;> rfl

/-! ### What an operation that leaves its argument alone leaves of the derived reads -/

theorem State.readReg_congr {s t : State} (h : t.regs = s.regs) (r : Reg) : t.readReg r = s.readReg r := by
  simp [State.readReg, h]

theorem State.readMem_congr {s t : State} (h : t.mem = s.mem) (a : Addr) : t.readMem a = s.readMem a := by
  simp [State.readMem, h]

end Sys2Proof.Machine
end

