-- ==== Sys2Proof/Laws/Registers.lean ====
section
/-! SUPPORT. The laws of the registers and of the program counter. -/

namespace Sys2Proof.Machine

@[simp] theorem Regs.read_zero (x : Vector Word 8) : Regs.read x 0 = 0 := rfl

theorem Regs.read_write (x : Vector Word 8) (d r : Reg) (v : Word) :
    Regs.read (Regs.write x d v) r = if r = 0 then 0 else if r = d then v else Regs.read x r := by
  by_cases hr : r = 0
  · simp [hr]
  · by_cases hd : d = 0
    · have : r ≠ d := fun h => hr (h.trans hd)
      simp [Regs.write, hd, hr]
    · by_cases hrd : r = d
      · simp [Regs.read, Regs.write, hrd, hd]
      · have : d.val ≠ r.val := fun h => hrd (Fin.ext h.symm)
        simp [Regs.read, Regs.write, hr, hd, hrd, this]

theorem State.readReg_writeReg (s : State) (d r : Reg) (v : Word) :
    (s.writeReg d v).readReg r = if r = 0 then 0 else if r = d then v else s.readReg r :=
  Regs.read_write s.regs d r v

/-- Register 0 keeps its stored value: a write to it is discarded, and no other write reaches it. -/
theorem Regs.write_cell_zero (x : Vector Word 8) (d : Reg) (v : Word) : (Regs.write x d v)[0] = x[0] := by
  by_cases hd : d = 0
  · simp [Regs.write, hd]
  · have : d.val ≠ 0 := fun h => hd (Fin.ext h)
    simp [Regs.write, hd, this]

/-- `pc` as an integer after `pc <- t` (00_scope.md R10). -/
theorem toNat_ofInt_addr (t : Int) : ((BitVec.ofInt 13 t).toNat : Int) = t % 8192 := by
  rw [BitVec.toNat_ofInt]
  exact Int.toNat_of_nonneg (Int.emod_nonneg t (by decide))

end Sys2Proof.Machine
end

