-- ==== Sys2Proof/Machine/Interface.lean ====
section
/-! DEFINITION. The block's interfaces (46_interfaces_trace.md R190): cache configuration in, program load in, start of a
run, a run under a bound, halted out, state dump out, and the text forms of the trace.

Texts are lists of characters. The text of a cache event and of the configuration line is the surrounding software's
(R198, R199; 00_scope.md R5); nothing of the machine depends on it. -/

namespace Sys2Proof.Machine

/-! ## Cache configuration (R191) -/

/-- Why a configuration is refused, before any run. -/
inductive ConfigError where
  /-- a count of integers other than 3 or 6: "a fatal configuration error" (R191) -/
  | badCount (n : Nat)
  /-- a level that does not meet 44_cache_level.md R141 -/
  | illegalLevel
deriving DecidableEq, Repr

/-- Every configured level meets R141. -/
def legalConfig : CacheConfig → Bool
  | .l1Only p => legalLevel p
  | .l1AndL2 p q => legalLevel p && legalLevel q

/-- A triple of integers; a negative one meets no constraint of R141. -/
def levelOfInts (size assoc blockSize : Int) : Option LevelParams :=
  if 0 ≤ size ∧ 0 ≤ assoc ∧ 0 ≤ blockSize ∧ legalLevel ⟨size.toNat, assoc.toNat, blockSize.toNat⟩ then
    some ⟨size.toNat, assoc.toNat, blockSize.toNat⟩
  else none

/-- "a comma-separated list of either 3 integers … or 6 integers (L1 triple followed by L2 triple)" (R191), the commas
already taken away. -/
def configOfInts (xs : List Int) : Except ConfigError CacheConfig :=
  match xs with
  | [s1, a1, b1] =>
    match levelOfInts s1 a1 b1 with
    | some p => .ok (.l1Only p)
    | none => .error .illegalLevel
  | [s1, a1, b1, s2, a2, b2] =>
    match levelOfInts s1 a1 b1, levelOfInts s2 a2 b2 with
    | some p, some q => .ok (.l1AndL2 p q)
    | _, _ => .error .illegalLevel
  | _ => .error (.badCount xs.length)

/-! ## Program load (R192, R193; log 23) -/

/-- Why an image is refused, before any run (R193). -/
inductive LoadError where
  /-- "Any line that does not match this pattern" -/
  | malformedLine
  /-- "any address that is not exactly the next expected address" -/
  | outOfOrder (address expected : Nat)
  /-- "any address at or beyond memory size" -/
  | addressOverflow (address : Nat)
deriving DecidableEq, Repr

/-- The rest of a line after a fixed text. -/
def dropText : List Char → List Char → Option (List Char)
  | [], cs => some cs
  | p :: ps, c :: cs => if p = c then dropText ps cs else none
  | _ :: _, [] => none

/-- The value of decimal digits, the most significant first. -/
def decimalValue (digits : List Char) : Nat := digits.foldl (fun n c => 10 * n + (c.toNat - 48)) 0

/-- `n` binary digits, the leftmost the most significant (R192), and the rest of the line. -/
def takeBits : Nat → Nat → List Char → Option (Nat × List Char)
  | 0, acc, cs => some (acc, cs)
  | n + 1, acc, c :: cs =>
    if c = '0' then takeBits n (2 * acc) cs else if c = '1' then takeBits n (2 * acc + 1) cs else none
  | _ + 1, _, [] => none

/-- One line `ram[<address>] = 16'b<16-bit binary digits>;`, optionally followed by any text (R192). -/
def parseImageLine (line : List Char) : Option (Nat × Word) :=
  match dropText ['r', 'a', 'm', '['] line with
  | none => none
  | some cs =>
    let digits := cs.takeWhile Char.isDigit
    if digits = [] then none
    else
      match dropText [']', ' ', '=', ' ', '1', '6', '\'', 'b'] (cs.dropWhile Char.isDigit) with
      | none => none
      | some bits =>
        match takeBits 16 0 bits with
        | none => none
        | some (v, rest) =>
          match rest with
          | ';' :: _ => some (decimalValue digits, BitVec.ofNat 16 v)
          | _ => none

/-- The words of an image whose next expected address is `expected` (R192, R193). The first bad line aborts the load.
Which error an address has that is both at or beyond the memory size and not the expected one is not said by the spec:
`addressOverflow` is the model's choice (DESIGN CHOICE, log 31). -/
def loadImageFrom (expected : Nat) : List (List Char) → Except LoadError (List Word)
  | [] => .ok []
  | line :: lines =>
    match parseImageLine line with
    | none => .error .malformedLine
    | some (address, v) =>
      if memSize ≤ address then .error (.addressOverflow address)
      else if address ≠ expected then .error (.outOfOrder address expected)
      else
        match loadImageFrom (expected + 1) lines with
        | .ok vs => .ok (v :: vs)
        | .error e => .error e

/-- The words of an image. An empty image is accepted (R193). -/
def loadImage (lines : List (List Char)) : Except LoadError (List Word) := loadImageFrom 0 lines

/-! ## The start of a run (70_reset_and_hazards.md R240) -/

/-- L1 of a configuration. -/
def CacheConfig.first : CacheConfig → LevelParams
  | .l1Only p => p
  | .l1AndL2 p _ => p

/-- L2 of a configuration, if it has one. -/
def CacheConfig.second : CacheConfig → Option LevelParams
  | .l1Only _ => none
  | .l1AndL2 _ q => some q

/-- The start state (R240): levels allocated empty; registers at `regFill` and memory at `memFill` (`regReset` and
`memReset` of 00_scope.md R8); the image in `M[0..n-1]`; `pc` 0, running, the trace empty. -/
def State.start (cfg : CacheConfig) (opts : OpenParams) (regFill memFill : Word) (image : List Word) : State where
  pc := 0
  regs := (Vector.replicate 8 regFill).set 0 0
  mem := Memory.writeFrom (Memory.filled memFill) 0 image
  runState := .running
  l1 := CacheLevel.empty (CacheConfig.first cfg)
  l2 := (CacheConfig.second cfg).map CacheLevel.empty
  trace := []
  opts := opts
  draws := 0

/-! ## A run under a bound (70_reset_and_hazards.md R254) -/

/-- How a bounded run ends, with the state it ends in. -/
inductive RunResult where
  /-- the final state: the machine halted (R246) -/
  | final (s : State)
  /-- the bound is exhausted and the machine still runs: "not finished", never a final state (R254, R225) -/
  | notFinished (s : State)
  /-- the machine reached an invalid word: a fault, not a hang (60_exceptions.md R211, R226; log 8) -/
  | fault (r : Fault) (s : State)
  /-- the machine does not start (44_cache_level.md R141) -/
  | refused (r : Refusal)
deriving DecidableEq, Repr

/-- A run of at most `fuel` steps: the model's own bound, since the machine has none (R254). The round trip of
R255 (4) is such a run. -/
def runFor (fuel : Nat) (s : State) : RunResult :=
  if s.configLegal then
    match s.runState, s.faultClass with
    | .halted, _ => .final s
    | .running, some r => .fault r s
    | .running, none =>
      match fuel with
      | 0 => .notFinished s
      | k + 1 =>
        match step s with
        | .next t => runFor k t
        | .fault r => .fault r s
        | .refused r => .refused r
  else .refused .illegalConfiguration

/-! ## Halted and the state dump (R201, R202) -/

/-- The `halted` output (R202). -/
def State.haltedOut (s : State) : Bool := decide (s.runState = .halted)

/-- What the dump returns (R201): no cache state. -/
structure Dump where
  pc : Addr
  regs : List Word
  words : List Word
deriving DecidableEq, Repr

/-- The read-only debug port: `pc`, `x[0..7]` and `M[0..n-1]` for a caller's `n` (R201, D32). For an `n` above 8192,
which the spec neither allows nor forbids, the answer has `n` words, and those past the end of memory are `memReset`:
the model's choice (DESIGN CHOICE, log 30). -/
def State.dump (s : State) (n : Nat) : Dump :=
  ⟨s.pc, (List.finRange 8).map s.readReg, s.mem.readBlock 0 n⟩

/-! ## Text forms (R198, R199, R201) -/

def decimalText (n : Nat) : List Char := Nat.toDigits 10 n

def padRight (n : Nat) (cs : List Char) : List Char := cs ++ List.replicate (n - cs.length) ' '

def padLeft (n : Nat) (cs : List Char) : List Char := List.replicate (n - cs.length) ' ' ++ cs

def levelText : LevelName → List Char
  | .L1 => ['L', '1']
  | .L2 => ['L', '2']

def statusText : CacheStatus → List Char
  | .hit => ['H', 'I', 'T']
  | .miss => ['M', 'I', 'S', 'S']
  | .sw => ['S', 'W']

/-- The log line of a cache event (R198; its spacing is PRESUMED by the spec, D17; log 24). The two diagnostics have no
text (R197, D25). -/
def renderEvent : Event → Option (List Char)
  | .cache level status pc addr row =>
    some (padRight 8 (levelText level ++ [' '] ++ statusText status)
      ++ [' ', 'p', 'c', ':'] ++ padLeft 5 (decimalText pc.toNat)
      ++ ['\t', 'a', 'd', 'd', 'r', ':'] ++ padLeft 5 (decimalText addr.toNat)
      ++ ['\t', 'r', 'o', 'w', ':'] ++ padLeft 4 (decimalText row) ++ ['\n'])
  | .invalidInstruction _ _ => none
  | .invalidCacheSelector _ => none

/-- The configuration line of a level (R199). -/
def renderConfigLine (level : LevelName) (p : LevelParams) : List Char :=
  ['C', 'a', 'c', 'h', 'e', ' '] ++ levelText level
    ++ [' ', 'h', 'a', 's', ' ', 's', 'i', 'z', 'e', ' '] ++ decimalText p.size
    ++ [',', ' ', 'a', 's', 's', 'o', 'c', 'i', 'a', 't', 'i', 'v', 'i', 't', 'y', ' '] ++ decimalText p.assoc
    ++ [',', ' ', 'b', 'l', 'o', 'c', 'k', 's', 'i', 'z', 'e', ' '] ++ decimalText p.blockSize
    ++ [',', ' ', 'r', 'o', 'w', 's', ' '] ++ decimalText (rowCount p)

/-- The configuration lines of a run: L1, then L2 if it is configured (R199). -/
def renderConfig : CacheConfig → List (List Char)
  | .l1Only p => [renderConfigLine .L1 p]
  | .l1AndL2 p q => [renderConfigLine .L1 p, renderConfigLine .L2 q]

/-- A word zero-padded to 4 hex digits (R201). -/
def hexText (v : Word) : List Char :=
  let digits := Nat.toDigits 16 v.toNat
  List.replicate (4 - digits.length) '0' ++ digits

/-- Up to `fuel` rows of 8. -/
def rowsOfEight : Nat → List Word → List (List Word)
  | 0, _ => []
  | _ + 1, [] => []
  | fuel + 1, v :: vs => (v :: vs).take 8 :: rowsOfEight fuel ((v :: vs).drop 8)

/-- The hex dump of the dumped words "in rows of 8" (R201); its layout beyond that is unspecified (D32; log 24). -/
def Dump.hexRows (d : Dump) : List (List (List Char)) :=
  (rowsOfEight d.words.length d.words).map fun row => row.map hexText

end Sys2Proof.Machine
end

