-- ==== Sys2Proof/Safety.lean ====
section
/-! DEFINITION. What counts as a safe run, in the terms the statements use: final states, the invariants, the frames of an instruction, and the relations between states. -/

namespace Sys2Proof.Machine

/-! ## Final states (60_exceptions.md R226) -/

/-- A final state: `runState = halted` (70_reset_and_hazards.md R246). -/
def State.isFinal (s : State) : Bool := decide (s.runState = .halted)

/-! ## Invariants -/

/-- What holds after reset and after every step: memory in its canonical form, register 0 holds 0 (10_state.md R21),
every level legal and well-formed (10_state.md R30; 44_cache_level.md R153; 70_reset_and_hazards.md R256). -/
def State.inv (s : State) : Bool :=
  Memory.wf s.mem && decide (s.regs[0] = 0) && s.l1.wf && (match s.l2 with | some l => l.wf | none => true)

/-- The valid ways of a row are a prefix of its way indices (44_cache_level.md R152). -/
def Row.validLow (r : Row) : Prop := ∀ v w, v < w → r.validAt w = true → r.validAt v = true

/-- The same for every row of every configured level. -/
def State.validLow (s : State) : Prop :=
  ∀ n l, s.level? n = some l → ∀ r ∈ l.rows, r.validLow

/-- Every configured level is direct-mapped (45_cache_hierarchy.md R184). -/
def State.directMapped (s : State) : Prop := ∀ n l, s.level? n = some l → l.params.assoc = 1

/-- Every valid way holds what memory holds for its block: the way with tag `t` in row `k` holds block `t * rowCount + k`
(44_cache_level.md R143). -/
def CacheLevel.coherent (l : CacheLevel) (m : Memory) : Prop :=
  ∀ k r, l.rows[k]? = some r → ∀ y ∈ r.ways, y.valid = true →
    y.data = m.readBlock ((y.tag * rowCount l.params + k) * l.params.blockSize) l.params.blockSize

/-- The conclusion of 45_cache_hierarchy.md R184 for the arrays. -/
def State.coherent (s : State) : Prop := ∀ n l, s.level? n = some l → l.coherent s.mem

/-! ## Frames -/

/-- Everything but the registers and `pc` is unchanged: memory, run state, both levels, the trace, the constants of the
run, and the model's counter. -/
def State.sameOutside (s t : State) : Prop :=
  t.mem = s.mem ∧ t.runState = s.runState ∧ t.l1 = s.l1 ∧ t.l2 = s.l2 ∧ t.trace = s.trace ∧ t.opts = s.opts
    ∧ t.draws = s.draws

/-- The registers after a write of `v` to `d`: every other register is unchanged, and a write to register 0 is discarded
(10_state.md R22). -/
def State.wrote (s t : State) (d : Reg) (v : Word) : Prop :=
  (d ≠ 0 → t.readReg d = v) ∧ (∀ r, r ≠ d → t.readReg r = s.readReg r) ∧ t.readReg 0 = 0

/-- No register changed. -/
def State.sameRegs (s t : State) : Prop := ∀ r, t.readReg r = s.readReg r

/-- `pc` advanced by 1, from 8191 to 0 (10_state.md R25). -/
def State.advanced (s t : State) : Prop := t.pc.toNat = (s.pc.toNat + 1) % 8192

/-- The instruction completes: it writes `v` to `d`, advances `pc` by 1 and changes nothing else. -/
def completesWriting (i : Instr) (s : State) (d : Reg) (v : Word) : Prop :=
  ∃ t, exec i s = .next t ∧ s.wrote t d v ∧ s.advanced t ∧ s.sameOutside t

/-- The instruction completes: `pc` becomes `target` and nothing else changes. -/
def completesJumping (i : Instr) (s : State) (target : Nat) : Prop :=
  ∃ t, exec i s = .next t ∧ t.pc.toNat = target ∧ s.sameRegs t ∧ s.sameOutside t

/-! ## States that differ only in the tag and data of invalid ways (10_state.md R36) -/

/-- Two ways that agree on validity, and on tag and data if they are valid. -/
def Way.agrees (y z : Way) : Prop := y.valid = z.valid ∧ (y.valid = true → y = z)

def Row.agrees (r q : Row) : Prop := r.recency = q.recency ∧ List.Forall₂ Way.agrees r.ways q.ways

def CacheLevel.agrees (l m : CacheLevel) : Prop := l.params = m.params ∧ List.Forall₂ Row.agrees l.rows m.rows

/-- Two states that agree on everything but the tag and data of invalid ways. -/
def State.agrees (s t : State) : Prop :=
  s.pc = t.pc ∧ s.regs = t.regs ∧ s.mem = t.mem ∧ s.runState = t.runState ∧ CacheLevel.agrees s.l1 t.l1
    ∧ Option.Rel CacheLevel.agrees s.l2 t.l2 ∧ s.trace = t.trace ∧ s.opts = t.opts ∧ s.draws = t.draws

/-! ## Words and fields as numbers, for the statements about the codec (30_encoding.md R72 to R75) -/

/-- The number of a 3-bit register field whose lowest bit is bit `k`. -/
def regField (w : Word) (k : Nat) : Reg := Fin.ofNat 8 (w.toNat / 2 ^ k)

/-- `w[6:0]` as the signed number it stands for (R78). -/
def immField (w : Word) : Int :=
  if w.toNat % 128 ≤ 63 then ((w.toNat % 128 : Nat) : Int) else ((w.toNat % 128 : Nat) : Int) - 128

/-- `000 aaa bbb ccc ffff` (R72). -/
def rWord (a b c : Reg) (func : Nat) : Word := BitVec.ofNat 16 (a.val * 1024 + b.val * 128 + c.val * 16 + func)

/-- `ooo aaa bbb iiiiiii` (R73). -/
def iWord (op : Nat) (a b : Reg) (imm : Int) : Word :=
  BitVec.ofNat 16 (op * 8192 + a.val * 1024 + b.val * 128 + (imm % 128).toNat)

/-- `ooo ttttttttttttt` (R74). -/
def jWord (op target : Nat) : Word := BitVec.ofNat 16 (op * 8192 + target)

/-- The register an instruction writes (10_state.md R23). -/
def writtenReg : Instr → Option Reg
  | .add _ _ c => some c
  | .sub _ _ c => some c
  | .or _ _ c => some c
  | .and _ _ c => some c
  | .slt _ _ c => some c
  | .jr _ => none
  | .addi _ b _ => some b
  | .j _ => none
  | .jal _ => some 7
  | .lw _ b _ => some b
  | .sw _ _ _ => none
  | .jeq _ _ _ => none
  | .slti _ b _ => some b

/-- Whether an instruction drives the cache hierarchy (43_load_store.md R133). -/
def usesCaches : Instr → Bool
  | .lw _ _ _ => true
  | .sw _ _ _ => true
  | .add _ _ _ => false
  | .sub _ _ _ => false
  | .or _ _ _ => false
  | .and _ _ _ => false
  | .slt _ _ _ => false
  | .jr _ => false
  | .addi _ _ _ => false
  | .j _ => false
  | .jal _ => false
  | .jeq _ _ _ => false
  | .slti _ _ _ => false

/-- The `pc` after an instruction, by the table of 10_state.md R25. -/
def nextPc (i : Instr) (s : State) : Int :=
  match i with
  | .add _ _ _ => (s.pc.toNat + 1) % 8192
  | .sub _ _ _ => (s.pc.toNat + 1) % 8192
  | .or _ _ _ => (s.pc.toNat + 1) % 8192
  | .and _ _ _ => (s.pc.toNat + 1) % 8192
  | .slt _ _ _ => (s.pc.toNat + 1) % 8192
  | .jr a => (s.readReg a).toNat % 8192
  | .addi _ _ _ => (s.pc.toNat + 1) % 8192
  | .j target => target % 8192
  | .jal target => target % 8192
  | .lw _ _ _ => (s.pc.toNat + 1) % 8192
  | .sw _ _ _ => (s.pc.toNat + 1) % 8192
  | .jeq a b imm => (s.pc.toNat + (if s.readReg a = s.readReg b then 1 + imm else 1)) % 8192
  | .slti _ _ _ => (s.pc.toNat + 1) % 8192

end Sys2Proof.Machine
end

