-- ==== Sys2Proof/Laws/Exec.lean ====
section
/-! SUPPORT. What the shared operations and a step can do: one lemma each, to be cited and not unfolded again. -/

namespace Sys2Proof.Machine

/-! ## The hierarchy -/

/-- Everything a load can do (45_cache_hierarchy.md R175). -/
theorem State.cacheLoad_cases (s : State) (a : Addr) :
    (∃ w, s.lookupLevel .L1 a = some w ∧ s.cacheLoad a =
      (s.readLevel .L1 a w, ((s.emit (s.cacheEvent .L1 .hit a)).touchLevel .L1 a w).countAccess)) ∨
    (s.lookupLevel .L1 a = none ∧ s.l2 = none ∧ s.cacheLoad a =
      (s.readMem a, ((s.emit (s.cacheEvent .L1 .miss a)).installLevel .L1 a).countAccess)) ∨
    (∃ w l, s.lookupLevel .L1 a = none ∧ s.l2 = some l ∧ s.lookupLevel .L2 a = some w ∧ s.cacheLoad a =
      (s.readLevel .L2 a w,
        (((s.emit (s.cacheEvent .L1 .miss a)).emit (s.cacheEvent .L2 .hit a)).touchLevel .L2 a w).countAccess)) ∨
    (∃ l, s.lookupLevel .L1 a = none ∧ s.l2 = some l ∧ s.lookupLevel .L2 a = none ∧ s.cacheLoad a =
      (s.readMem a,
        ((((s.emit (s.cacheEvent .L1 .miss a)).emit (s.cacheEvent .L2 .miss a)).installLevel .L2 a).installLevel
          .L1 a).countAccess)) := by
  cases h1 : s.lookupLevel .L1 a with
  | some w => exact .inl ⟨w, rfl, by simp [State.cacheLoad, State.deliver, h1]⟩
  | none =>
    cases h2 : s.l2 with
    | none => exact .inr (.inl ⟨rfl, rfl, by simp [State.cacheLoad, h1, h2]⟩)
    | some l =>
      have hl : (s.emit (s.cacheEvent .L1 .miss a)).lookup .L2 a
          = (s.lookupLevel .L2 a, s.emit (s.cacheEvent .L1 .miss a)) := by
        rw [State.lookup_L2 (by simpa using h2), State.lookupLevel_emit]
      cases h3 : s.lookupLevel .L2 a with
      | some w =>
        refine .inr (.inr (.inl ⟨w, l, rfl, rfl, rfl, ?_⟩))
        have hr : ((s.emit (s.cacheEvent .L1 .miss a)).emit (s.cacheEvent .L2 .hit a)).read .L2 a w
            = (s.readLevel .L2 a w, (s.emit (s.cacheEvent .L1 .miss a)).emit (s.cacheEvent .L2 .hit a)) := by
          rw [State.read_L2 (l := l) (by simpa using h2), State.readLevel_emit, State.readLevel_emit]
        simp only [State.cacheLoad, State.lookup_L1, h1, h2, hl, h3, State.deliver, State.cacheEvent_emit, hr]
      | none =>
        refine .inr (.inr (.inr ⟨l, rfl, rfl, rfl, ?_⟩))
        simp only [State.cacheLoad, State.lookup_L1, h1, h2, hl, h3, State.cacheEvent_emit]
        rfl

/-- What every load leaves alone (45_cache_hierarchy.md R175, R180). -/
theorem State.cacheLoad_frame (s : State) (a : Addr) :
    (s.cacheLoad a).2.pc = s.pc ∧ (s.cacheLoad a).2.regs = s.regs ∧ (s.cacheLoad a).2.mem = s.mem
      ∧ (s.cacheLoad a).2.runState = s.runState ∧ (s.cacheLoad a).2.opts = s.opts
      ∧ (s.cacheLoad a).2.draws = s.draws + 1 := by
  rcases s.cacheLoad_cases a with ⟨w, -, h⟩ | ⟨-, -, h⟩ | ⟨w, l, -, -, -, h⟩ | ⟨l, -, -, -, h⟩ <;> simp [h]

/-- What every store leaves alone, and the memory after it (R176). -/
theorem State.cacheStore_frame (s : State) (a : Addr) (v : Word) :
    (s.cacheStore a v).pc = s.pc ∧ (s.cacheStore a v).regs = s.regs
      ∧ (s.cacheStore a v).mem = Memory.write s.mem a.toNat v ∧ (s.cacheStore a v).runState = s.runState
      ∧ (s.cacheStore a v).opts = s.opts ∧ (s.cacheStore a v).draws = s.draws + 1 := by
  cases h : s.l2 <;> simp [State.cacheStore, h]

/-- L1 after a store: the block of the stored address, read after the write, is installed (R176). -/
theorem State.cacheStore_l1 (s : State) (a : Addr) (v : Word) :
    (s.cacheStore a v).l1 = s.l1.install s.opts.freeWayPick (Config.freeInstallWay .L1 s.draws)
      (Memory.write s.mem a.toNat v) a := by
  cases h : s.l2 <;> simp [State.cacheStore, h]

/-- L2 after a store, if it is configured (R176). -/
theorem State.cacheStore_l2 (s : State) (a : Addr) (v : Word) :
    (s.cacheStore a v).l2 = s.l2.map fun l => l.install s.opts.freeWayPick (Config.freeInstallWay .L2 s.draws)
      (Memory.write s.mem a.toNat v) a := by
  cases h : s.l2 <;> simp [State.cacheStore, h]

/-- The events of a store (R179). -/
theorem State.cacheStore_trace (s : State) (a : Addr) (v : Word) :
    (s.cacheStore a v).trace = s.trace ++ Event.cache .L1 .sw s.pc a (rowOf s.l1.params a) ::
      (match s.l2 with | none => [] | some l => [Event.cache .L2 .sw s.pc a (rowOf l.params a)]) := by
  cases h : s.l2 with
  | none => simp [State.cacheStore, h, State.cacheEvent, State.rowIndex, LevelName.number, State.level?]
  | some l =>
    have h2 : ((s.writeMem a v).storeLevel .L1 a).l2 = some l := by simp [h]
    simp [State.cacheStore, h, State.installLevel_L2_trace h2, State.cacheEvent, State.rowIndex, LevelName.number,
      State.level?]

/-! ## A step -/

/-- Everything a step can do (70_reset_and_hazards.md R243). -/
theorem step_cases {s : State} {o : Host.Outcome State Fault Refusal} (h : step s = o) :
    (s.configLegal = false ∧ o = .refused .illegalConfiguration) ∨
    (s.configLegal = true ∧ s.runState = .halted ∧ o = .next s) ∨
    (∃ i, s.configLegal = true ∧ s.runState = .running ∧ decode s.fetch = .valid i ∧ o = exec i s) ∨
    (∃ w, s.configLegal = true ∧ s.runState = .running ∧ decode s.fetch = .invalid w
      ∧ o = .next (s.raiseInvalidInstruction w)) := by
  subst h
  unfold step
  split
  · rename_i hc
    split
    · rename_i hr
      exact .inr (.inl ⟨hc, hr, rfl⟩)
    · rename_i hr
      split
      · rename_i i hd
        exact .inr (.inr (.inl ⟨i, hc, hr, hd, rfl⟩))
      · rename_i w hd
        exact .inr (.inr (.inr ⟨w, hc, hr, hd, rfl⟩))
  · rename_i hc
    exact .inl ⟨by simpa using hc, rfl⟩

/-! ## The instructions

The next state of each, as an equation. -/

theorem exec_add (a b c : Reg) (s : State) : exec (.add a b c) s =
    .next ((s.writeReg c (BitVec.ofNat 16 ((s.readReg a).toNat + (s.readReg b).toNat))).incrPc 1) := rfl

theorem exec_sub (a b c : Reg) (s : State) : exec (.sub a b c) s =
    .next ((s.writeReg c (BitVec.ofInt 16 (((s.readReg a).toNat : Int) - ((s.readReg b).toNat : Int)))).incrPc 1) := rfl

theorem exec_or (a b c : Reg) (s : State) : exec (.or a b c) s =
    .next ((s.writeReg c (s.readReg a ||| s.readReg b)).incrPc 1) := rfl

theorem exec_and (a b c : Reg) (s : State) : exec (.and a b c) s =
    .next ((s.writeReg c (s.readReg a &&& s.readReg b)).incrPc 1) := rfl

theorem exec_slt (a b c : Reg) (s : State) : exec (.slt a b c) s =
    .next ((s.writeReg c (boolWord (lessThan s.opts.sltSigned (s.readReg a) (s.readReg b)))).incrPc 1) := rfl

theorem exec_jr (a : Reg) (s : State) : exec (.jr a) s = .next (s.setPc ((s.readReg a).toNat : Int)) := rfl

theorem exec_addi (a b : Reg) (imm : Int) (s : State) : exec (.addi a b imm) s =
    .next ((s.writeReg b (BitVec.ofInt 16 (((s.readReg a).toNat : Int) + imm))).incrPc 1) := rfl

theorem exec_j (t : Nat) (s : State) : exec (.j t) s =
    .next (if t = s.pc.toNat then s.halt else s.setPc (t : Int)) := rfl

theorem exec_jal (t : Nat) (s : State) : exec (.jal t) s =
    .next ((s.writeReg linkReg (linkValue s.pc)).setPc (t : Int)) := rfl

theorem exec_lw (a b : Reg) (imm : Int) (s : State) : exec (.lw a b imm) s =
    .next (((s.cacheLoad (effectiveAddr (s.readReg a) imm)).2.writeReg b
      (s.cacheLoad (effectiveAddr (s.readReg a) imm)).1).incrPc 1) := rfl

theorem exec_sw (a b : Reg) (imm : Int) (s : State) : exec (.sw a b imm) s =
    .next ((s.cacheStore (effectiveAddr (s.readReg a) imm) (s.readReg b)).incrPc 1) := rfl

theorem exec_jeq (a b : Reg) (imm : Int) (s : State) : exec (.jeq a b imm) s =
    .next (s.incrPc (if condEqual (s.readReg a) (s.readReg b) then 1 + imm else 1)) := rfl

theorem exec_slti (a b : Reg) (imm : Int) (s : State) : exec (.slti a b imm) s =
    .next ((s.writeReg b (boolWord (lessThan s.opts.sltSigned (s.readReg a) (immWord imm)))).incrPc 1) := rfl

end Sys2Proof.Machine
end

