-- ==== Sys2Proof/Certificates/Slice0/Obligations.lean ====
section
/-! DEFINITION. The statements for the provers. A docstring names the rule of spec/ a statement formalises, and the log
entry of every choice of the spec's or the model's that it rests on. -/

open Sys2Proof Sys2Proof.Machine

/-! ## The codec (30_encoding.md) -/

/-- 95_test_vectors.md V0: words written out from the encodings of R72 to R74 decode to the instruction they stand for.
Rests on D2 and D3 (logs 15, 14), for the `jr` word with bits of 9:4 set on D26 (log 18), and for the negative immediates
on D28 (log 27). -/
def Obligations.DecodeOfSpecWords : Prop :=
  decode 0x0000 = .valid (.add 0 0 0) ∧ decode 0x0530 = .valid (.add 1 2 3) ∧ decode 0x0531 = .valid (.sub 1 2 3)
    ∧ decode 0x0532 = .valid (.or 1 2 3) ∧ decode 0x0533 = .valid (.and 1 2 3) ∧ decode 0x0534 = .valid (.slt 1 2 3)
    ∧ decode 0x1C08 = .valid (.jr 7) ∧ decode 0x1FF8 = .valid (.jr 7) ∧ decode 0x2085 = .valid (.addi 0 1 5)
    ∧ decode 0x4001 = .valid (.j 1) ∧ decode 0x5FFF = .valid (.j 8191) ∧ decode 0x6020 = .valid (.jal 32)
    ∧ decode 0x8905 = .valid (.lw 2 2 5) ∧ decode 0xA080 = .valid (.sw 0 1 0)
    ∧ decode 0xC07B = .valid (.jeq 0 0 (-5)) ∧ decode 0xE57F = .valid (.slti 1 2 (-1))
    ∧ decode 0x0535 = .invalid 0x0535 ∧ decode 0x0009 = .invalid 0x0009 ∧ decode 0x1FFF = .invalid 0x1FFF

/-- R83: the decoder on every word, field by field in the word's own arithmetic. Rests on D2 and D3 (logs 15, 14);
that a `jr` word is one for every value of bits 9:4 is D26 (log 18), the value of `immField` D28 (log 27). -/
def Obligations.DecodeReadsEveryField : Prop :=
  ∀ w : Word,
    (w.toNat / 8192 = 0 ∧ w.toNat % 16 = 0 → decode w = .valid (.add (regField w 10) (regField w 7) (regField w 4))) ∧
    (w.toNat / 8192 = 0 ∧ w.toNat % 16 = 1 → decode w = .valid (.sub (regField w 10) (regField w 7) (regField w 4))) ∧
    (w.toNat / 8192 = 0 ∧ w.toNat % 16 = 2 → decode w = .valid (.or (regField w 10) (regField w 7) (regField w 4))) ∧
    (w.toNat / 8192 = 0 ∧ w.toNat % 16 = 3 → decode w = .valid (.and (regField w 10) (regField w 7) (regField w 4))) ∧
    (w.toNat / 8192 = 0 ∧ w.toNat % 16 = 4 → decode w = .valid (.slt (regField w 10) (regField w 7) (regField w 4))) ∧
    (w.toNat / 8192 = 0 ∧ w.toNat % 16 = 8 → decode w = .valid (.jr (regField w 10))) ∧
    (w.toNat / 8192 = 0 ∧ w.toNat % 16 ∉ [0, 1, 2, 3, 4, 8] → decode w = .invalid w) ∧
    (w.toNat / 8192 = 1 → decode w = .valid (.addi (regField w 10) (regField w 7) (immField w))) ∧
    (w.toNat / 8192 = 2 → decode w = .valid (.j (w.toNat % 8192))) ∧
    (w.toNat / 8192 = 3 → decode w = .valid (.jal (w.toNat % 8192))) ∧
    (w.toNat / 8192 = 4 → decode w = .valid (.lw (regField w 10) (regField w 7) (immField w))) ∧
    (w.toNat / 8192 = 5 → decode w = .valid (.sw (regField w 10) (regField w 7) (immField w))) ∧
    (w.toNat / 8192 = 6 → decode w = .valid (.jeq (regField w 10) (regField w 7) (immField w))) ∧
    (w.toNat / 8192 = 7 → decode w = .valid (.slti (regField w 10) (regField w 7) (immField w)))

/-- R89: the round trips. `decode (encode i) = i` for every well-formed instruction; `encode (decode w) = w` for every
valid word but a `jr` word, which re-encodes with bits 9:4 zero (D26, log 18); every word decodes to an instruction or to
the invalid instruction that names it. The layout is D2 and D3 (logs 15, 14), the value of an immediate D28 (log 27). -/
def Obligations.DecodeEncodeRoundTrip : Prop :=
  (∀ i : Instr, i.wellFormed = true → decode (encode i) = .valid i) ∧
  (∀ (w : Word) (i : Instr), decode w = .valid i → (∀ a, i ≠ .jr a) → encode i = w) ∧
  (∀ (w : Word) (a : Reg), decode w = .valid (.jr a) → encode (.jr a) = w &&& 0xFC0F) ∧
  (∀ w : Word, (∃ i, decode w = .valid i) ∨ decode w = .invalid w)

/-- R84: the invalid words are exactly those with opcode 0 and an unused function code, and there are 5120 of them. That no
word with another opcode is invalid is the spec's D34. -/
def Obligations.InvalidWordsAreExactly : Prop :=
  (∀ w : Word, (∃ v, decode w = .invalid v) ↔ w.toNat / 8192 = 0 ∧ w.toNat % 16 ∉ [0, 1, 2, 3, 4, 8]) ∧
  ((List.range 65536).filter fun n => decide (n / 8192 = 0) && decide (n % 16 ∉ [0, 1, 2, 3, 4, 8])).length = 5120

/-- R85, R78, R79: every decoded instruction is well-formed; no field value is illegal. The value of an immediate is
D28 (log 27). -/
def Obligations.DecodedInstructionIsWellFormed : Prop :=
  ∀ (w : Word) (i : Instr), decode w = .valid i → i.wellFormed = true

/-- R78: the value of a 7-bit immediate, its range and its 16-bit pattern. The reading of "negation" is D28 (log 27). -/
def Obligations.SignExtensionOfImmediates : Prop :=
  ∀ v : BitVec 7,
    (v.toNat ≤ 63 → sext7 v = (v.toNat : Int) ∧ (immWord (sext7 v)).toNat = v.toNat) ∧
    (64 ≤ v.toNat → sext7 v = (v.toNat : Int) - 128 ∧ (immWord (sext7 v)).toNat = v.toNat + 65408) ∧
    -64 ≤ sext7 v ∧ sext7 v ≤ 63

/-! ## Registers, program counter, reset (10_state.md) -/

/-- R21: register 0 reads 0 in every state, a write to it changes nothing, and no instruction makes it read anything
else. It reads 0 in every role: whatever its cell is made to hold, every instruction does the same, and the cell keeps
what it holds. -/
def Obligations.RegisterZeroIsHardWired : Prop :=
  ∀ s : State, s.readReg 0 = 0 ∧ (∀ v, s.writeReg 0 v = s) ∧
    ∀ i t, exec i s = .next t → t.readReg 0 = 0 ∧ t.regs[0] = s.regs[0] ∧
      ∀ v, exec i { s with regs := s.regs.set 0 v } = .next { t with regs := t.regs.set 0 v }

/-- R22: a write to registers 1 to 7 stores the value there and nowhere else, and changes nothing but the registers; a
write to register 0 does nothing. -/
def Obligations.RegisterWriteStoresOrDiscards : Prop :=
  ∀ (s : State) (d : Reg) (v : Word),
    s.wrote (s.writeReg d v) d v ∧ s.sameOutside (s.writeReg d v) ∧ (s.writeReg d v).pc = s.pc ∧ s.writeReg 0 v = s

/-- R25: `incr_pc(n)` adds `n` modulo 8192 for every integer `n`, and changes nothing else; the `pc` after each
instruction is the one of the rule's table, except that the halt form of `j` leaves it unchanged, which is the same
number; the invalid instruction leaves it unchanged. -/
def Obligations.ProgramCounterUpdates : Prop :=
  (∀ (s : State) (n : Int), ((s.incrPc n).pc.toNat : Int) = (s.pc.toNat + n) % 8192
    ∧ (s.incrPc n).regs = s.regs ∧ s.sameOutside (s.incrPc n)) ∧
  (∀ (i : Instr) (s t : State), exec i s = .next t → (t.pc.toNat : Int) = nextPc i s) ∧
  (∀ (s : State) (w : Word), (s.raiseInvalidInstruction w).pc = s.pc)

/-- R23: an instruction changes no register but the one the rule's table says it writes. -/
def Obligations.OnlyTheDestinationRegisterChanges : Prop :=
  ∀ (i : Instr) (s t : State), exec i s = .next t →
    ∀ r, writtenReg i ≠ some r → t.readReg r = s.readReg r

/-- R33, 70_reset_and_hazards.md R241: after reset `pc` is 0 and the machine runs, so the first word fetched is `M[0]`.
No configuration, no open parameter and no image changes that. -/
def Obligations.ResetEntersAtZero : Prop :=
  (State.reset.pc = 0 ∧ State.reset.runState = .running ∧ State.reset.fetch = State.reset.readMem 0) ∧
  ∀ (cfg : CacheConfig) (opts : OpenParams) (regFill memFill : Word) (image : List Word),
    let s := State.start cfg opts regFill memFill image
    s.pc = 0 ∧ s.runState = .running ∧ s.fetch = s.readMem 0

/-- R34 to R37, R240: the start state of any configuration and image. `pc` 0, running, register 0 reads 0, every word
the image covers holds the image's word, every way of every configured level is invalid, every recency list and the trace
are empty. The registers and the words outside the image hold the values the caller names: the values 0 of
`State.reset` are the choices of logs 2 and 3, its configuration that of log 5. -/
def Obligations.StartOfARun : Prop :=
  (∀ (cfg : CacheConfig) (opts : OpenParams) (regFill memFill : Word) (image : List Word), image.length ≤ 8192 →
    let s := State.start cfg opts regFill memFill image
    s.pc = 0 ∧ s.runState = .running ∧ s.readReg 0 = 0 ∧ (∀ r, r ≠ 0 → s.readReg r = regFill) ∧
    (∀ a : Addr, s.readMem a = image.getD a.toNat memFill) ∧
    s.trace = [] ∧ s.config = cfg ∧ s.opts = opts ∧
    ∀ n l, s.level? n = some l → l.rows.length = rowCount l.params ∧
      ∀ r ∈ l.rows, r.recency = [] ∧ r.ways.length = l.params.assoc ∧ ∀ w, r.validAt w = false) ∧
  State.reset = State.start CacheConfig.default OpenParams.default regReset memReset []

/-! ## The instructions: results, completion and frames -/

/-- 40_alu_rtype.md R101. The word's field order is D2 (log 15). -/
def Obligations.AddResult : Prop :=
  ∀ (a b c : Reg) (s : State), decode (rWord a b c 0) = .valid (.add a b c) ∧
    completesWriting (.add a b c) s c (BitVec.ofNat 16 (((s.readReg a).toNat + (s.readReg b).toNat) % 65536))

/-- R102. The operand order `x[rA] - x[rB]` is the spec's reading, D33 (log 16); the field order is D2 (log 15). -/
def Obligations.SubResult : Prop :=
  ∀ (a b c : Reg) (s : State), decode (rWord a b c 1) = .valid (.sub a b c) ∧
    completesWriting (.sub a b c) s c
      (BitVec.ofNat 16 ((65536 + (s.readReg a).toNat - (s.readReg b).toNat) % 65536))

/-- R103, R104, bit by bit. The field order is D2 (log 15). -/
def Obligations.OrAndResults : Prop :=
  ∀ (a b c : Reg) (s : State), decode (rWord a b c 2) = .valid (.or a b c) ∧ decode (rWord a b c 3) = .valid (.and a b c) ∧
    (∃ v : Word, (∀ k, v.getLsbD k = ((s.readReg a).getLsbD k || (s.readReg b).getLsbD k))
      ∧ completesWriting (.or a b c) s c v) ∧
    (∃ v : Word, (∀ k, v.getLsbD k = ((s.readReg a).getLsbD k && (s.readReg b).getLsbD k))
      ∧ completesWriting (.and a b c) s c v)

/-- R105, for both settings of the open parameter `sltSigned` (D4, log 13): unsigned when it is false, which is the
spec's default, signed when it is true. The operand order is D33 (log 16), the field order D2 (log 15). -/
def Obligations.SltResult : Prop :=
  ∀ (a b c : Reg) (s : State), decode (rWord a b c 4) = .valid (.slt a b c) ∧
    (s.opts.sltSigned = false → completesWriting (.slt a b c) s c
      (if (s.readReg a).toNat < (s.readReg b).toNat then 1 else 0)) ∧
    (s.opts.sltSigned = true → completesWriting (.slt a b c) s c
      (if (s.readReg a).toInt < (s.readReg b).toInt then 1 else 0))

/-- 41_alu_imm.md R111. The opcode number is D3, the field order D2 (logs 14, 15), the value of the immediate D28
(log 27). -/
def Obligations.AddiResult : Prop :=
  ∀ (a b : Reg) (imm : Int) (s : State), immFits imm = true →
    decode (iWord 1 a b imm) = .valid (.addi a b imm) ∧
    completesWriting (.addi a b imm) s b (BitVec.ofNat 16 (((s.readReg a).toNat + imm) % 65536).toNat)

/-- R112, for both settings of `sltSigned` (D4, log 13). The operand order is D33 (log 16), the opcode number D3, the
field order D2 (logs 14, 15), the value of the immediate D28 (log 27). -/
def Obligations.SltiResult : Prop :=
  ∀ (a b : Reg) (imm : Int) (s : State), immFits imm = true →
    decode (iWord 7 a b imm) = .valid (.slti a b imm) ∧
    (s.opts.sltSigned = false → completesWriting (.slti a b imm) s b
      (if ((s.readReg a).toNat : Int) < imm % 65536 then 1 else 0)) ∧
    (s.opts.sltSigned = true → completesWriting (.slti a b imm) s b
      (if (s.readReg a).toInt < imm then 1 else 0))

/-- 42_control.md R120: bits 9:4 of the word do not matter (D26, log 18); the upper three bits of the register are
dropped. The field order is D2 (log 15). -/
def Obligations.JrResult : Prop :=
  ∀ (a b c : Reg) (s : State), decode (rWord a b c 8) = .valid (.jr a) ∧
    completesJumping (.jr a) s ((s.readReg a).toNat % 8192)

/-- R121. The opcode number is D3, the field order D2 (logs 14, 15), the value of the immediate D28 (log 27). -/
def Obligations.JeqResult : Prop :=
  ∀ (a b : Reg) (imm : Int) (s : State), immFits imm = true →
    decode (iWord 6 a b imm) = .valid (.jeq a b imm) ∧
    (s.readReg a = s.readReg b → completesJumping (.jeq a b imm) s ((s.pc.toNat + 1 + imm) % 8192).toNat) ∧
    (s.readReg a ≠ s.readReg b → completesJumping (.jeq a b imm) s ((s.pc.toNat + 1) % 8192))

/-- R122: `j` to another address than its own. The opcode number is D3 (log 14). -/
def Obligations.JumpResult : Prop :=
  ∀ (target : Nat) (s : State), target < 8192 → decode (jWord 2 target) = .valid (.j target) ∧
    (target ≠ s.pc.toNat → completesJumping (.j target) s target)

/-- R123: `j` to its own address halts and changes nothing but the run state. The word is `0x4000 | p` (D3, log 14). -/
def Obligations.HaltResult : Prop :=
  ∀ s : State, decode (0x4000 ||| s.pc.zeroExtend 16) = .valid (.j s.pc.toNat) ∧
    exec (.j s.pc.toNat) s = .next { s with runState := .halted }

/-- R124: `jal` writes `pc + 1`, not reduced modulo 8192 (D5, log 17), to register 7 and jumps, to its own address
too: it is never a halt. The opcode number is D3 (log 14). -/
def Obligations.JalResult : Prop :=
  ∀ (target : Nat) (s : State), target < 8192 → decode (jWord 3 target) = .valid (.jal target) ∧
    ∃ t, exec (.jal target) s = .next t ∧ (t.readReg 7).toNat = s.pc.toNat + 1 ∧
      (∀ r, r ≠ 7 → t.readReg r = s.readReg r) ∧ t.pc.toNat = target ∧ s.sameOutside t

/-- 43_load_store.md R130: the sum over the integers reduced modulo 8192; wrapping it to 16 bits first gives the same.
The address the hierarchy is given is computed from the registers at the start of the instruction, and it is given it
before `pc` advances: the first event of a `lw` and of a `sw` carries both. What the numbers in an event mean is D19
(log 20). -/
def Obligations.EffectiveAddressLaw : Prop :=
  (∀ (base : Word) (imm : Int), ((effectiveAddr base imm).toNat : Int) = (base.toNat + imm) % 8192 ∧
    effectiveAddr base imm = (base + BitVec.ofInt 16 imm).setWidth 13) ∧
  (∀ (a b : Reg) (imm : Int) (s : State),
    let addr := effectiveAddr (s.readReg a) imm
    (∃ t st, exec (.lw a b imm) s = .next t ∧
      t.trace[s.trace.length]? = some (.cache .L1 st s.pc addr (rowOf s.l1.params addr))) ∧
    (∃ t, exec (.sw a b imm) s = .next t ∧
      t.trace[s.trace.length]? = some (.cache .L1 .sw s.pc addr (rowOf s.l1.params addr))))

/-- R131, R132, R133, 20_memory.md R42: `lw` and `sw` complete in every state with every operand. Each ends with one
increment of `pc`, whichever path the hierarchy takes. `lw` writes no memory and no register but its destination. `sw`
writes no register, and no word of memory but the one at the effective address. -/
def Obligations.LoadAndStoreAlwaysComplete : Prop :=
  ∀ (a b : Reg) (imm : Int) (s : State),
    (∃ t v, exec (.lw a b imm) s = .next t ∧ s.wrote t b v ∧ s.advanced t ∧ t.mem = s.mem
      ∧ t.runState = s.runState ∧ t.opts = s.opts ∧ t.config = s.config) ∧
    (∃ t, exec (.sw a b imm) s = .next t ∧ s.sameRegs t ∧ s.advanced t
      ∧ t.readMem (effectiveAddr (s.readReg a) imm) = s.readReg b
      ∧ (∀ x, x ≠ effectiveAddr (s.readReg a) imm → t.readMem x = s.readMem x)
      ∧ t.runState = s.runState ∧ t.opts = s.opts ∧ t.config = s.config)

/-! ## The hierarchy (45_cache_hierarchy.md) -/

/-- R172: an L1 hit. The value is the word of the way's block data at the address's offset; L1's way is touched; L2,
memory and the run state are as before; one event. What the numbers in the event mean is D19 (log 20), where a word
stands in the block data D13 (log 22). -/
def Obligations.LoadHitsL1 : Prop :=
  ∀ (a b : Reg) (imm : Int) (s : State) (w : Nat),
    let addr := effectiveAddr (s.readReg a) imm
    s.lookupLevel .L1 addr = some w →
    ∃ t, exec (.lw a b imm) s = .next t ∧ s.wrote t b (s.l1.readWay addr w) ∧ s.advanced t
      ∧ t.l1 = s.l1.touch addr w ∧ t.l2 = s.l2 ∧ t.mem = s.mem ∧ t.runState = s.runState ∧ t.opts = s.opts
      ∧ t.trace = s.trace ++ [.cache .L1 .hit s.pc addr (rowOf s.l1.params addr)]

/-- R173: an L1 miss and an L2 hit. L1 is not changed at all, not even the recency list of the row that missed, and the
same address misses in L1 again. What the numbers in the events mean is D19 (log 20), where a word stands in the block data
D13 (log 22). -/
def Obligations.LoadHitsL2 : Prop :=
  ∀ (a b : Reg) (imm : Int) (s : State) (l2 : CacheLevel) (w : Nat),
    let addr := effectiveAddr (s.readReg a) imm
    s.l2 = some l2 → s.lookupLevel .L1 addr = none → s.lookupLevel .L2 addr = some w →
    ∃ t, exec (.lw a b imm) s = .next t ∧ s.wrote t b (l2.readWay addr w) ∧ s.advanced t
      ∧ t.l1 = s.l1 ∧ t.lookupLevel .L1 addr = none ∧ t.l2 = some (l2.touch addr w) ∧ t.mem = s.mem ∧ t.runState = s.runState ∧ t.opts = s.opts
      ∧ t.trace = s.trace ++ [.cache .L1 .miss s.pc addr (rowOf s.l1.params addr),
          .cache .L2 .hit s.pc addr (rowOf l2.params addr)]

/-- R174: a miss at every configured level. The value is `M[addr]`; every configured level installs the block, each with
its own block size; no event but the misses. In a state with the invariant every configured level then holds the block
in its most recently used way, whose word at the address's offset is the value loaded. What the numbers in the events
mean is D19 (log 20), which words form a block D13 (log 22). -/
def Obligations.LoadMissesEveryLevel : Prop :=
  ∀ (a b : Reg) (imm : Int) (s : State),
    let addr := effectiveAddr (s.readReg a) imm
    let install := fun (n : LevelName) (l : CacheLevel) =>
      l.install s.opts.freeWayPick (Config.freeInstallWay n s.draws) s.mem addr
    s.lookupLevel .L1 addr = none → (s.l2 ≠ none → s.lookupLevel .L2 addr = none) →
    ∃ t, exec (.lw a b imm) s = .next t ∧ s.wrote t b (s.readMem addr) ∧ s.advanced t
      ∧ t.l1 = install .L1 s.l1 ∧ t.l2 = s.l2.map (install .L2) ∧ t.mem = s.mem ∧ t.runState = s.runState
      ∧ t.opts = s.opts
      ∧ t.trace = s.trace ++ .cache .L1 .miss s.pc addr (rowOf s.l1.params addr) ::
          (match s.l2 with | none => [] | some l => [.cache .L2 .miss s.pc addr (rowOf l.params addr)])
      ∧ (s.inv = true → ∀ n l, t.level? n = some l → ∃ r w, l.rowAt addr = some r
          ∧ r.matchesAt (tagOf l.params addr) w = true ∧ l.readWay addr w = s.readMem addr
          ∧ r.recency.getLast? = some w)

/-- R132, R176, R179: a store writes memory, then installs in every configured level the block as memory now holds it,
and emits one `SW` per configured level. That `L1 SW` comes before `L2 SW` is D8 (log 19); what the numbers in the events
mean is D19 (log 20), which words form a block D13 (log 22). -/
def Obligations.StoreWritesThroughAndInstalls : Prop :=
  ∀ (a b : Reg) (imm : Int) (s : State),
    let addr := effectiveAddr (s.readReg a) imm
    ∃ t, exec (.sw a b imm) s = .next t ∧ s.sameRegs t ∧ s.advanced t
      ∧ t.readMem addr = s.readReg b ∧ (∀ x, x ≠ addr → t.readMem x = s.readMem x)
      ∧ t.l1 = s.l1.install s.opts.freeWayPick (Config.freeInstallWay .L1 s.draws) t.mem addr
      ∧ t.l2 = s.l2.map (fun l => l.install s.opts.freeWayPick (Config.freeInstallWay .L2 s.draws) t.mem addr)
      ∧ t.runState = s.runState ∧ t.opts = s.opts
      ∧ t.trace = s.trace ++ .cache .L1 .sw s.pc addr (rowOf s.l1.params addr) ::
          (match s.l2 with | none => [] | some l => [.cache .L2 .sw s.pc addr (rowOf l.params addr)])

/-- R177: after a store, every configured level holds, as the most recently used way of the address's row, a valid way of
the address's block whose word at the address is the stored value. Which words form a block is D13 (log 22). -/
def Obligations.StoreLeavesTheStoredWordInEveryLevel : Prop :=
  ∀ (a b : Reg) (imm : Int) (s t : State),
    let addr := effectiveAddr (s.readReg a) imm
    s.inv = true → exec (.sw a b imm) s = .next t →
    ∀ n l, t.level? n = some l → ∃ r w, l.rowAt addr = some r ∧ r.matchesAt (tagOf l.params addr) w = true
      ∧ l.readWay addr w = s.readReg b ∧ r.recency.getLast? = some w

/-- R185, R173: an L2 hit is never promoted. Where L1 misses and L2 hits, the same load, its base register still holding
the address, misses L1 and hits the same way of L2 again. For the scan order of the default, D6 (log 10). -/
def Obligations.L2HitIsNeverPromoted : Prop :=
  ∀ (a b : Reg) (imm : Int) (s : State) (w : Nat),
    let addr := effectiveAddr (s.readReg a) imm
    s.opts.hitScan = .lowest → s.l2 ≠ none → s.lookupLevel .L1 addr = none → s.lookupLevel .L2 addr = some w →
    ∃ t, exec (.lw a b imm) s = .next t ∧
      (t.readReg a = s.readReg a → t.lookupLevel .L1 (effectiveAddr (t.readReg a) imm) = none
        ∧ t.lookupLevel .L2 (effectiveAddr (t.readReg a) imm) = some w)

/-- R183: the stale hit. A level of one row of two ways of one word (`size=2, A=2, B=1`), empty, no L2, the default scan
and pick (D6, D7; logs 10, 11): `lw`, `sw` of another value, `lw` of one address; the second load hits and returns the
value from before the store, while memory holds the stored value. What the numbers in the events mean is D19 (log 20). -/
def Obligations.StaleHitAfterStore : Prop :=
  ∀ (s : State) (base d src e : Reg) (imm : Int),
    let addr := effectiveAddr (s.readReg base) imm
    s.l1 = CacheLevel.empty ⟨2, 2, 1⟩ → s.l2 = none → s.opts.hitScan = .lowest → s.opts.freeWayPick = .lowest →
    d ≠ base → d ≠ src → e ≠ 0 →
    ∃ t₁ t₂ t₃, exec (.lw base d imm) s = .next t₁ ∧ exec (.sw base src imm) t₁ = .next t₂ ∧
      exec (.lw base e imm) t₂ = .next t₃ ∧ t₃.readReg e = s.readMem addr ∧ t₃.readMem addr = s.readReg src ∧
      t₃.trace = s.trace ++ [.cache .L1 .miss s.pc addr 0, .cache .L1 .sw t₁.pc addr 0, .cache .L1 .hit t₂.pc addr 0]

/-- R184: direct-mapped transparency, as an invariant. If every configured level has associativity 1 and every valid way
holds what memory holds for its block, the same is true after every step. Which words form a block is D13 (log 22). -/
def Obligations.DirectMappedLevelsStayCoherent : Prop :=
  ∀ s t : State, s.inv = true → s.directMapped → s.coherent → step s = .next t → t.directMapped ∧ t.coherent

/-- R184: with direct-mapped coherent levels every `lw` returns what memory holds, which is the value of the last `sw` to
that address; and a start state of a direct-mapped configuration is coherent. Which words form a block is D13 (log 22). -/
def Obligations.DirectMappedLoadReturnsMemory : Prop :=
  (∀ (a b : Reg) (imm : Int) (s : State), s.inv = true → s.directMapped → s.coherent →
    ∃ t, exec (.lw a b imm) s = .next t ∧ s.wrote t b (s.readMem (effectiveAddr (s.readReg a) imm))) ∧
  (∀ (cfg : CacheConfig) (opts : OpenParams) (regFill memFill : Word) (image : List Word),
    (State.start cfg opts regFill memFill image).coherent)

/-! ## One level (44_cache_level.md) -/

/-- R143: the decomposition of an address, for every legal level: the four numbers, that they determine the address, and
that two addresses have the same tag and row exactly when they are in the same block. R145, R141: the block lies in memory;
its base is D13 (log 22). -/
def Obligations.AddressDecomposition : Prop :=
  ∀ (p : LevelParams) (a b : Addr), legalLevel p = true →
    blockNumber p a = a.toNat / p.blockSize ∧ offsetOf p a = a.toNat % p.blockSize ∧
    rowOf p a = a.toNat / p.blockSize % (p.size / (p.assoc * p.blockSize)) ∧
    tagOf p a = a.toNat / p.blockSize / (p.size / (p.assoc * p.blockSize)) ∧
    rowOf p a < rowCount p ∧ offsetOf p a < p.blockSize ∧
    a.toNat = (tagOf p a * rowCount p + rowOf p a) * p.blockSize + offsetOf p a ∧
    (tagOf p a = tagOf p b ∧ rowOf p a = rowOf p b ↔ a.toNat / p.blockSize = b.toNat / p.blockSize) ∧
    blockBase p a + p.blockSize ≤ 8192

/-- R144: when block size and row count are powers of two, offset, row and tag are bit slices of the address; in every
case the tag is at most `(8191 div B) div rowCount`. -/
def Obligations.DecompositionIsBitSlicing : Prop :=
  ∀ (p : LevelParams) (a : Addr), legalLevel p = true →
    tagOf p a ≤ 8191 / p.blockSize / rowCount p ∧
    ∀ j k : Nat, p.blockSize = 2 ^ j → rowCount p = 2 ^ k →
      offsetOf p a = (a.extractLsb' 0 j).toNat ∧ rowOf p a = (a.extractLsb' j k).toNat
        ∧ tagOf p a = a.toNat >>> (j + k) ∧ (13 ≤ j + k → tagOf p a = 0)

/-- R146: a hit names a valid way of the row whose tag matches, a miss says that there is none; an invalid way never
matches. Whatever the scan order. A lookup at a configured level changes no state. -/
def Obligations.LookupFindsAMatchingWay : Prop :=
  (∀ (l : CacheLevel) (pick : WayPick) (free : Nat) (a : Addr) (r : Row),
    l.rows[rowOf l.params a]? = some r →
    (∀ w, l.lookup pick free a = some w → ∃ y : Way, r.ways[w]? = some y ∧ y.valid = true ∧ y.tag = tagOf l.params a) ∧
    (l.lookup pick free a = none ↔
      ∀ (w : Nat) (y : Way), r.ways[w]? = some y → y.valid = true → y.tag ≠ tagOf l.params a)) ∧
  (∀ (s : State) (n : LevelName) (l : CacheLevel) (a : Addr), s.level? n.number = some l →
    s.lookup n a = (l.lookup s.opts.hitScan (Config.freeHitWay n s.draws) a, s))

/-- R155, R145: a hit delivers the word of the way's block data at the address's offset; after an install that word is what
memory held at the address, and at every address of the block what memory held there. Block base and offset are D13
(log 22). -/
def Obligations.ReadDeliversTheInstalledWord : Prop :=
  (∀ (l : CacheLevel) (a : Addr) (w : Nat) (r : Row) (y : Way) (v : Word), l.rows[rowOf l.params a]? = some r →
    r.ways[w]? = some y → y.data[a.toNat % l.params.blockSize]? = some v → l.readWay a w = v) ∧
  (∀ (l : CacheLevel) (pick : WayPick) (free : Nat) (m : Memory) (a : Addr), l.wf = true →
    ∃ r w, (l.install pick free m a).rowAt a = some r ∧ r.recency.getLast? = some w ∧ r.validAt w = true ∧
      ∀ b : Addr, b.toNat / l.params.blockSize = a.toNat / l.params.blockSize →
        (l.install pick free m a).readWay b w = m.read b.toNat)

/-- R147, R150 with the defaults of D6 and D7 (logs 10, 11): the ascending scan returns the lowest matching way; an
install takes the lowest invalid way. -/
def Obligations.DefaultsTakeTheLowestWay : Prop :=
  (∀ (l : CacheLevel) (free w : Nat) (a : Addr) (r : Row), l.rows[rowOf l.params a]? = some r →
    (l.lookup .lowest free a = some w ↔
      r.matchesAt (tagOf l.params a) w = true ∧ ∀ v, v < w → r.matchesAt (tagOf l.params a) v = false)) ∧
  (∀ (r : Row) (free w : Nat), w < r.ways.length → r.validAt w = false → (∀ v, v < w → r.validAt v = true) →
    r.choose .lowest free = some w)

/-- R149: a touch moves the way to the back, adding it if absent; the order of the others is unchanged; nothing but the
recency list of the row changes. -/
def Obligations.TouchMovesToTheBack : Prop :=
  (∀ (r : Row) (w : Nat), (r.touch w).ways = r.ways ∧ (r.touch w).recency.getLast? = some w
    ∧ (r.touch w).recency.count w = 1
    ∧ ((r.touch w).recency.filter fun v => v ≠ w) = (r.recency.filter fun v => v ≠ w)) ∧
  (∀ (l : CacheLevel) (a : Addr) (w k : Nat), (l.touch a w).params = l.params ∧
    (l.touch a w).rows[k]? = (l.rows[k]?).map fun r => if k = rowOf l.params a then r.touch w else r)

/-- R151: an install in a well-formed level. The way taken is an invalid one if the row has one, else the front of the
recency list; it gets the block of the address as memory holds it, the tag, the valid flag, and the back of the recency
list; every other way and row is unchanged. Which way is taken is R150, which words form the block R145, D13
(log 22). -/
def Obligations.InstallReplacesOneWay : Prop :=
  ∀ (l : CacheLevel) (pick : WayPick) (free : Nat) (m : Memory) (a : Addr), l.wf = true →
    ∃ r w, l.rows[rowOf l.params a]? = some r ∧ w < l.params.assoc ∧
      ((∃ v, v < l.params.assoc ∧ r.validAt v = false) → r.validAt w = false) ∧
      ((∀ v, v < l.params.assoc → r.validAt v = true) → r.recency.head? = some w) ∧
      (l.install pick free m a).params = l.params ∧
      (l.install pick free m a).rows = l.rows.set (rowOf l.params a)
        ⟨r.ways.set w ⟨true, tagOf l.params a, (List.range l.params.blockSize).map fun i =>
            Memory.read m (a.toNat / l.params.blockSize * l.params.blockSize + i)⟩,
          (r.recency.filter fun v => v ≠ w) ++ [w]⟩

/-- R152: a valid way stays valid; and with the lowest free way taken (D7, log 11) the valid ways of every row stay a
prefix of the way indices. -/
def Obligations.ValidWaysOnlyGrow : Prop :=
  ∀ s t : State, s.inv = true → step s = .next t →
    (∀ n l l', s.level? n = some l → t.level? n = some l' → ∀ (k : Nat) (r r' : Row), l.rows[k]? = some r → l'.rows[k]? = some r' →
      ∀ w, r.validAt w = true → r'.validAt w = true) ∧
    (s.opts.freeWayPick = .lowest → s.validLow → t.validLow)

/-- R156: the levels are separate instances selected by number. An operation on level 1 never reads or writes L2, one on
level 2 never L1; an operation on a level that is not configured emits a diagnostic and changes nothing else, whether it
would change the level or read it; one that reads a configured level changes nothing; and no step emits that diagnostic.
What an operation answers that reads a level that is not there is the model's choice (log 29). -/
def Obligations.LevelsAreSelectedByNumber : Prop :=
  (∀ (s : State) (f : CacheLevel → CacheLevel), s.onLevel 1 f = { s with l1 := f s.l1 }) ∧
  (∀ (s : State) (l : CacheLevel) (f : CacheLevel → CacheLevel), s.l2 = some l →
    s.onLevel 2 f = { s with l2 := some (f l) }) ∧
  (∀ (s : State) (n : Nat) (f : CacheLevel → CacheLevel), (n = 2 ∧ s.l2 = none) ∨ (n ≠ 1 ∧ n ≠ 2) →
    s.onLevel n f = { s with trace := s.trace ++ [.invalidCacheSelector n] }) ∧
  (∀ (α : Type) (s : State) (n : Nat) (f : CacheLevel → α) (absent : α),
    (∀ l, s.level? n = some l → s.queryLevel n f absent = (f l, s)) ∧
    ((n = 2 ∧ s.l2 = none) ∨ (n ≠ 1 ∧ n ≠ 2) →
      s.queryLevel n f absent = (absent, { s with trace := s.trace ++ [.invalidCacheSelector n] }))) ∧
  (∀ (s : State) (a : Addr) (w : Nat), s.l2 = none →
    (s.lookup .L2 a).1 = none ∧ (s.lookup .L2 a).2 = { s with trace := s.trace ++ [.invalidCacheSelector 2] } ∧
    (s.read .L2 a w).2 = { s with trace := s.trace ++ [.invalidCacheSelector 2] }) ∧
  (∀ (s t : State), step s = .next t →
    ∀ n, t.trace.count (.invalidCacheSelector n) = s.trace.count (.invalidCacheSelector n))

/-! ## The invariant -/

/-- 10_state.md R30, 70_reset_and_hazards.md R256: every step keeps the invariant: the canonical form of memory, 0 in
register 0, legal levels of the shape of R140 whose recency lists have no duplicates, hold exactly the valid ways and so
are no longer than the associativity, and whose tags are in range. -/
def Obligations.StepKeepsTheInvariant : Prop :=
  (∀ s t : State, s.inv = true → step s = .next t → t.inv = true) ∧
  (∀ s : State, s.inv = true → ∀ n l, s.level? n = some l → ∀ r ∈ l.rows,
    (∀ w, w ∈ r.recency ↔ r.validAt w = true) ∧ r.recency.Nodup ∧ r.recency.length ≤ l.params.assoc)

/-- 10_state.md R30 ("after reset"): every start state of a legal configuration has the invariant, and so has
`State.reset`. -/
def Obligations.StartHasTheInvariant : Prop :=
  State.reset.inv = true ∧
  ∀ (cfg : CacheConfig) (opts : OpenParams) (regFill memFill : Word) (image : List Word),
    legalConfig cfg = true → image.length ≤ 8192 → (State.start cfg opts regFill memFill image).inv = true

/-- 10_state.md R30: after reset and after every step of a run, from any start with a legal configuration, a way is in its
row's recency list exactly when it is valid, the list has no duplicates, and it is no longer than the associativity. -/
def Obligations.RecencyListsOfEveryRun : Prop :=
  ∀ (cfg : CacheConfig) (opts : OpenParams) (regFill memFill : Word) (image : List Word) (k : Nat) (t : State),
    legalConfig cfg = true → image.length ≤ 8192 →
    core.run k (State.start cfg opts regFill memFill image) = .next t →
    ∀ n l, t.level? n = some l → ∀ r ∈ l.rows,
      (∀ w, w ∈ r.recency ↔ r.validAt w = true) ∧ r.recency.Nodup ∧ r.recency.length ≤ l.params.assoc

/-! ## The whole machine (60_exceptions.md, 70_reset_and_hazards.md, 46_interfaces_trace.md) -/

/-- 70_reset_and_hazards.md R243: a running machine fetches `M[pc]` directly, decodes it and executes exactly that
instruction; an invalid word raises `InvalidInstruction`, with the literal effect of D14 (log 8). -/
def Obligations.StepRunsTheDecodedInstruction : Prop :=
  ∀ s : State, s.configLegal = true → s.runState = .running →
    (∀ i, decode (s.readMem s.pc) = .valid i → step s = exec i s) ∧
    (∀ w, decode (s.readMem s.pc) = .invalid w → step s = .next (s.raiseInvalidInstruction w))

/-- 44_cache_level.md R141, R244, 60_exceptions.md R212: a machine whose configuration meets R141 always has a next
state; one whose configuration does not is refused; no step faults. That a machine with an illegal configuration is
refused is D12 (log 7); that a halted one stays as it is, D20 (log 9). -/
def Obligations.StepIsTotalOnLegalConfigurations : Prop :=
  ∀ s : State,
    let meets := fun p : LevelParams => 1 ≤ p.assoc ∧ 1 ≤ p.blockSize ∧ p.assoc * p.blockSize ≤ p.size
      ∧ p.size % (p.assoc * p.blockSize) = 0 ∧ p.blockSize ∣ 8192
    ((∀ n l, s.level? n = some l → meets l.params) → ∃ t, step s = .next t) ∧
    ((∃ n l, s.level? n = some l ∧ ¬ meets l.params) → step s = .refused .illegalConfiguration)

/-- 60_exceptions.md R210: an invalid word emits its event and changes nothing else. The payload of the event is D22
(log 20); that the literal effect is taken is log 8. -/
def Obligations.InvalidInstructionChangesNothingElse : Prop :=
  ∀ s : State, s.configLegal = true → s.runState = .running → (∃ w, decode (s.readMem s.pc) = .invalid w) →
    s.faultClass = some (.invalidInstruction s.pc (s.readMem s.pc)) ∧
    step s = .next { s with trace := s.trace ++ [.invalidInstruction s.pc (s.readMem s.pc)] }

/-- R211: once at an invalid word the machine reports it at every step, for ever, and never halts. -/
def Obligations.InvalidInstructionRepeatsForEver : Prop :=
  ∀ (s : State) (k : Nat), s.configLegal = true → s.runState = .running →
    (∃ w, decode (s.readMem s.pc) = .invalid w) →
    core.run k s = .next
      { s with trace := s.trace ++ List.replicate k (.invalidInstruction s.pc (s.readMem s.pc)) }

/-- R246: a step of a running machine halts exactly when it fetches from `p` a word with `w[15:13] = 2` and
`w[12:0] = p`; then nothing but the run state changed. The opcode number is D3 (log 14). -/
def Obligations.RunEndsExactlyAtAHalt : Prop :=
  ∀ s t : State, s.runState = .running → step s = .next t →
    (t.runState = .halted ↔
      (s.readMem s.pc).toNat / 8192 = 2 ∧ (s.readMem s.pc).toNat % 8192 = s.pc.toNat) ∧
    (t.runState = .halted → t = { s with runState := .halted })

/-- 10_state.md R27: halted is absorbing: nothing changes and nothing is emitted, however many steps are asked for. That
the model answers the unchanged state is its own choice (D20, log 9). -/
def Obligations.HaltedIsAbsorbing : Prop :=
  ∀ (s : State) (k : Nat), s.configLegal = true → s.runState = .halted → core.run k s = .next s

/-- 46_interfaces_trace.md R195, 70_reset_and_hazards.md R244: the trace is append-only, a step appends at most two
events, and the machine never reads it: with any other trace the same step happens and appends the same events. -/
def Obligations.TraceIsAppendOnlyAndNeverRead : Prop :=
  ∀ s t : State, step s = .next t → ∃ es, t.trace = s.trace ++ es ∧ es.length ≤ 2 ∧
    ∀ other, step { s with trace := other } = .next { t with trace := other ++ es }

/-- 43_load_store.md R133, 46_interfaces_trace.md R200: on every instruction but `lw` and `sw` the caches, memory and the
trace are as before. -/
def Obligations.OnlyLoadsAndStoresDriveTheCaches : Prop :=
  ∀ (i : Instr) (s : State), usesCaches i = false → ∃ t, exec i s = .next t ∧
    t.l1 = s.l1 ∧ t.l2 = s.l2 ∧ t.mem = s.mem ∧ t.trace = s.trace ∧ t.opts = s.opts ∧ t.draws = s.draws

/-- 10_state.md R26, 70_reset_and_hazards.md R256: memory is changed only by `sw`, one word per `sw`. -/
def Obligations.OnlyStoresChangeMemory : Prop :=
  ∀ s t : State, step s = .next t → t.mem = s.mem ∨
    ∃ a b imm, decode (s.readMem s.pc) = .valid (.sw a b imm)
      ∧ ∀ x, x ≠ effectiveAddr (s.readReg a) imm → t.readMem x = s.readMem x

/-- 00_scope.md R7, 10_state.md R20: the cache configuration and the open parameters are constant during a run. -/
def Obligations.ConfigurationIsConstant : Prop :=
  ∀ (s t : State) (k : Nat), core.run k s = .next t → t.config = s.config ∧ t.opts = s.opts

/-- 20_memory.md R54: a store is seen by the very next fetch: after a `sw` to the address of the next instruction the
stored word is the one the next step decodes. -/
def Obligations.StoreIsSeenByTheNextFetch : Prop :=
  ∀ (a b : Reg) (imm : Int) (s : State), s.configLegal = true → s.runState = .running →
    (effectiveAddr (s.readReg a) imm).toNat = (s.pc.toNat + 1) % 8192 →
    ∃ t, exec (.sw a b imm) s = .next t ∧ t.fetch = s.readReg b ∧
      ∀ i, decode (s.readReg b) = .valid i → step t = exec i t

/-- 10_state.md R36: the tag and the data of an invalid way cannot be observed: two states that differ only there take
steps to states that differ only there. -/
def Obligations.InvalidWaysAreUnobservable : Prop :=
  ∀ s s' t : State, s.agrees s' → step s = .next t → ∃ t', step s' = .next t' ∧ t.agrees t'

/-- 46_interfaces_trace.md R191: three integers configure L1, six L1 and L2, any other count is an error; a configuration
that does not meet 44_cache_level.md R141 is refused (D12, log 7), and so is one with a negative integer (log 23). -/
def Obligations.ConfigurationFromIntegers : Prop :=
  (∀ s a b : Nat, configOfInts [s, a, b] =
    if legalLevel ⟨s, a, b⟩ then .ok (.l1Only ⟨s, a, b⟩) else .error .illegalLevel) ∧
  (∀ s a b s' a' b' : Nat, configOfInts [s, a, b, s', a', b'] =
    if legalLevel ⟨s, a, b⟩ && legalLevel ⟨s', a', b'⟩ then .ok (.l1AndL2 ⟨s, a, b⟩ ⟨s', a', b'⟩)
    else .error .illegalLevel) ∧
  (∀ s a b : Int, s < 0 ∨ a < 0 ∨ b < 0 → configOfInts [s, a, b] = .error .illegalLevel) ∧
  (∀ s a b s' a' b' : Int, s < 0 ∨ a < 0 ∨ b < 0 ∨ s' < 0 ∨ a' < 0 ∨ b' < 0 →
    configOfInts [s, a, b, s', a', b'] = .error .illegalLevel) ∧
  (∀ xs : List Int, xs.length ≠ 3 → xs.length ≠ 6 → configOfInts xs = .error (.badCount xs.length))

/-- 46_interfaces_trace.md R192, R193: an image loads exactly when its `k`-th line parses to address `k` and every address
is inside the memory; then the loaded words are those of the lines. The radix and the bit order of a line are D16
(log 23). -/
def Obligations.ImageLoadsExactlyWhenInOrder : Prop :=
  ∀ (lines : List (List Char)) (words : List Word), loadImage lines = .ok words ↔
    words.length = lines.length ∧ words.length ≤ 8192 ∧
    ∀ k line v, lines[k]? = some line → words[k]? = some v → parseImageLine line = some (k, v)
end

