-- ==== Sys2Proof/Laws/Codec.lean ====
section
/-! SUPPORT. The laws of the codec: the fields of a word, and the words of the three formats, as numbers. -/

namespace Sys2Proof.Machine

/-! ## Fields (30_encoding.md R75) -/

theorem fieldOp_toNat (w : Word) : (fieldOp w).toNat = w.toNat / 8192 := by
  have := w.isLt
  simp [fieldOp, BitVec.extractLsb'_toNat, Nat.shiftRight_eq_div_pow]
  omega

theorem fieldFunc_toNat (w : Word) : (fieldFunc w).toNat = w.toNat % 16 := by simp [fieldFunc]

theorem fieldImm13_toNat (w : Word) : (fieldImm13 w).toNat = w.toNat % 8192 := by simp [fieldImm13]

theorem fieldImm7_toNat (w : Word) : (fieldImm7 w).toNat = w.toNat % 128 := by simp [fieldImm7]

theorem fieldA_eq (w : Word) : fieldA w = regField w 10 := by
  apply Fin.ext
  simp [fieldA, regField, Nat.shiftRight_eq_div_pow]

theorem fieldB_eq (w : Word) : fieldB w = regField w 7 := by
  apply Fin.ext
  simp [fieldB, regField, Nat.shiftRight_eq_div_pow]

theorem fieldC_eq (w : Word) : fieldC w = regField w 4 := by
  apply Fin.ext
  simp [fieldC, regField, Nat.shiftRight_eq_div_pow]

theorem sext7_fieldImm7 (w : Word) : sext7 (fieldImm7 w) = immField w := by
  simp only [sext7, fieldImm7_toNat, immField]

/-! ## Words (R72 to R74, R88) -/

theorem opRType_toNat : opRType.toNat = 0 := rfl

theorem encodeR_toNat (a b c : Reg) (f : BitVec 4) :
    (encodeR a b c f).toNat = a.val * 1024 + b.val * 128 + c.val * 16 + f.toNat := by
  have ha := a.isLt
  have hb := b.isLt
  have hc := c.isLt
  have hf := f.isLt
  simp only [encodeR, regBits, BitVec.toNat_append, BitVec.toNat_ofNat, opRType_toNat]
  rw [← Nat.shiftLeft_add_eq_or_of_lt (by omega), ← Nat.shiftLeft_add_eq_or_of_lt (by omega),
    ← Nat.shiftLeft_add_eq_or_of_lt (by omega), ← Nat.shiftLeft_add_eq_or_of_lt (by omega)]
  simp only [Nat.shiftLeft_eq]
  omega

theorem encodeI_toNat (op : BitVec 3) (a b : Reg) (imm : Int) :
    (encodeI op a b imm).toNat = op.toNat * 8192 + a.val * 1024 + b.val * 128 + (imm % 128).toNat := by
  have ha := a.isLt
  have hb := b.isLt
  have ho := op.isLt
  have hi : (imm % 128).toNat < 128 := by omega
  simp only [encodeI, regBits, BitVec.toNat_append, BitVec.toNat_ofNat, BitVec.toNat_ofInt]
  rw [← Nat.shiftLeft_add_eq_or_of_lt (by omega), ← Nat.shiftLeft_add_eq_or_of_lt (by omega),
    ← Nat.shiftLeft_add_eq_or_of_lt (by omega)]
  simp only [Nat.shiftLeft_eq]
  omega

theorem encodeJ_toNat (op : BitVec 3) (target : Nat) :
    (encodeJ op target).toNat = op.toNat * 8192 + target % 8192 := by
  simp only [encodeJ, BitVec.toNat_append, BitVec.toNat_ofNat]
  rw [← Nat.shiftLeft_add_eq_or_of_lt (by omega)]
  simp only [Nat.shiftLeft_eq]

theorem fieldOp_encodeR (a b c : Reg) (f : BitVec 4) : fieldOp (encodeR a b c f) = opRType := by
  have := f.isLt
  apply BitVec.eq_of_toNat_eq
  rw [fieldOp_toNat, encodeR_toNat, opRType_toNat]
  omega

theorem fieldFunc_encodeR (a b c : Reg) (f : BitVec 4) : fieldFunc (encodeR a b c f) = f := by
  have := f.isLt
  apply BitVec.eq_of_toNat_eq
  rw [fieldFunc_toNat, encodeR_toNat]
  omega

theorem fieldOp_encodeI (op : BitVec 3) (a b : Reg) (imm : Int) : fieldOp (encodeI op a b imm) = op := by
  apply BitVec.eq_of_toNat_eq
  rw [fieldOp_toNat, encodeI_toNat]
  omega

theorem fieldOp_encodeJ (op : BitVec 3) (target : Nat) : fieldOp (encodeJ op target) = op := by
  apply BitVec.eq_of_toNat_eq
  rw [fieldOp_toNat, encodeJ_toNat]
  omega

end Sys2Proof.Machine
end

