-- ==== Sys2Proof/Laws/PerInstr.lean ====
section
/-! SUPPORT. The family FixedBits: the encoded word of an instruction has the bits that spec/opcode_table.json fixes for
its row. -/

namespace Sys2Proof.Laws.FixedBits

/-- The row's bits 15:13. -/
def rowOp : Instr → BitVec 3
  | .add _ _ _ => 0
  | .sub _ _ _ => 0
  | .or _ _ _ => 0
  | .and _ _ _ => 0
  | .slt _ _ _ => 0
  | .jr _ => 0
  | .addi _ _ _ => 1
  | .j _ => 2
  | .jal _ => 3
  | .lw _ _ _ => 4
  | .sw _ _ _ => 5
  | .jeq _ _ _ => 6
  | .slti _ _ _ => 7

/-- The row's bits 3:0, where it fixes them. -/
def rowFunc : Instr → Option (BitVec 4)
  | .add _ _ _ => some 0
  | .sub _ _ _ => some 1
  | .or _ _ _ => some 2
  | .and _ _ _ => some 3
  | .slt _ _ _ => some 4
  | .jr _ => some 8
  | .addi _ _ _ => none
  | .j _ => none
  | .jal _ => none
  | .lw _ _ _ => none
  | .sw _ _ _ => none
  | .jeq _ _ _ => none
  | .slti _ _ _ => none

def Statement (i : Instr) : Prop :=
  fieldOp (encode i) = rowOp i ∧ ∀ f, rowFunc i = some f → fieldFunc (encode i) = f

theorem ofR {i : Instr} {a b c : Reg} {f : BitVec 4} (he : encode i = encodeR a b c f) (ho : rowOp i = 0)
    (hf : rowFunc i = some f) : Statement i := by
  refine ⟨?_, fun g hg => ?_⟩
  · rw [he, ho]
    exact Machine.fieldOp_encodeR a b c f
  · rw [hf] at hg
    cases hg
    rw [he]
    exact Machine.fieldFunc_encodeR a b c f

theorem ofI {i : Instr} {op : BitVec 3} {a b : Reg} {imm : Int} (he : encode i = encodeI op a b imm) (ho : rowOp i = op)
    (hf : rowFunc i = none) : Statement i :=
  ⟨by rw [he, ho]; exact Machine.fieldOp_encodeI op a b imm, fun f h => by rw [hf] at h; cases h⟩

theorem ofJ {i : Instr} {op : BitVec 3} {target : Nat} (he : encode i = encodeJ op target) (ho : rowOp i = op)
    (hf : rowFunc i = none) : Statement i :=
  ⟨by rw [he, ho]; exact Machine.fieldOp_encodeJ op target, fun f h => by rw [hf] at h; cases h⟩

end Sys2Proof.Laws.FixedBits

theorem Sys2Proof.Laws.FixedBits.add (rA rB rC : Sys2Proof.Reg) :
    Sys2Proof.Laws.FixedBits.Statement (.add rA rB rC) := Sys2Proof.Laws.FixedBits.ofR rfl rfl rfl

theorem Sys2Proof.Laws.FixedBits.sub (rA rB rC : Sys2Proof.Reg) :
    Sys2Proof.Laws.FixedBits.Statement (.sub rA rB rC) := Sys2Proof.Laws.FixedBits.ofR rfl rfl rfl

theorem Sys2Proof.Laws.FixedBits.or (rA rB rC : Sys2Proof.Reg) :
    Sys2Proof.Laws.FixedBits.Statement (.or rA rB rC) := Sys2Proof.Laws.FixedBits.ofR rfl rfl rfl

theorem Sys2Proof.Laws.FixedBits.and (rA rB rC : Sys2Proof.Reg) :
    Sys2Proof.Laws.FixedBits.Statement (.and rA rB rC) := Sys2Proof.Laws.FixedBits.ofR rfl rfl rfl

theorem Sys2Proof.Laws.FixedBits.slt (rA rB rC : Sys2Proof.Reg) :
    Sys2Proof.Laws.FixedBits.Statement (.slt rA rB rC) := Sys2Proof.Laws.FixedBits.ofR rfl rfl rfl

theorem Sys2Proof.Laws.FixedBits.jr (rA : Sys2Proof.Reg) :
    Sys2Proof.Laws.FixedBits.Statement (.jr rA) := Sys2Proof.Laws.FixedBits.ofR rfl rfl rfl

theorem Sys2Proof.Laws.FixedBits.addi (rA rB : Sys2Proof.Reg) (imm : Int) :
    Sys2Proof.Laws.FixedBits.Statement (.addi rA rB imm) := Sys2Proof.Laws.FixedBits.ofI rfl rfl rfl

theorem Sys2Proof.Laws.FixedBits.j (target : Nat) :
    Sys2Proof.Laws.FixedBits.Statement (.j target) := Sys2Proof.Laws.FixedBits.ofJ rfl rfl rfl

theorem Sys2Proof.Laws.FixedBits.jal (target : Nat) :
    Sys2Proof.Laws.FixedBits.Statement (.jal target) := Sys2Proof.Laws.FixedBits.ofJ rfl rfl rfl

theorem Sys2Proof.Laws.FixedBits.lw (rA rB : Sys2Proof.Reg) (imm : Int) :
    Sys2Proof.Laws.FixedBits.Statement (.lw rA rB imm) := Sys2Proof.Laws.FixedBits.ofI rfl rfl rfl

theorem Sys2Proof.Laws.FixedBits.sw (rA rB : Sys2Proof.Reg) (imm : Int) :
    Sys2Proof.Laws.FixedBits.Statement (.sw rA rB imm) := Sys2Proof.Laws.FixedBits.ofI rfl rfl rfl

theorem Sys2Proof.Laws.FixedBits.jeq (rA rB : Sys2Proof.Reg) (imm : Int) :
    Sys2Proof.Laws.FixedBits.Statement (.jeq rA rB imm) := Sys2Proof.Laws.FixedBits.ofI rfl rfl rfl

theorem Sys2Proof.Laws.FixedBits.slti (rA rB : Sys2Proof.Reg) (imm : Int) :
    Sys2Proof.Laws.FixedBits.Statement (.slti rA rB imm) := Sys2Proof.Laws.FixedBits.ofI rfl rfl rfl
end

