-- ==== Sys2Proof/Laws/Run.lean ====
section
/-! SUPPORT. What a run under a bound answers (70_reset_and_hazards.md R254), in terms of the steps of the machine. -/

namespace Sys2Proof.Machine

theorem core_run_succ (k : Nat) {s t : State} (h : step s = .next t) : core.run (k + 1) s = core.run k t := by
  have hs : core.step s = .next t := h
  simp only [Host.Core.run, hs]

/-- What `runFor` can answer: a halted state, or a state at an invalid word, that some number of steps within the bound
reaches; a running state that all the steps of the bound reach; or the refusal of an illegal configuration. -/
def RunResult.accounts (fuel : Nat) (s : State) : RunResult → Prop
  | .final t => t.runState = .halted ∧ ∃ j ≤ fuel, core.run j s = .next t
  | .notFinished t => t.runState = .running ∧ core.run fuel s = .next t
  | .fault r t => t.faultClass = some r ∧ ∃ j ≤ fuel, core.run j s = .next t
  | .refused r => r = .illegalConfiguration

/-- One more step in front. -/
theorem RunResult.accounts_step {k : Nat} {s t : State} (h : step s = .next t) {o : RunResult} (ho : o.accounts k t) :
    o.accounts (k + 1) s := by
  cases o with
  | final u =>
    obtain ⟨hu, j, hj, hr⟩ := ho
    exact ⟨hu, j + 1, by omega, (core_run_succ j h).trans hr⟩
  | notFinished u => exact ⟨ho.1, (core_run_succ k h).trans ho.2⟩
  | fault r u =>
    obtain ⟨hu, j, hj, hr⟩ := ho
    exact ⟨hu, j + 1, by omega, (core_run_succ j h).trans hr⟩
  | refused r => exact ho

theorem runFor_accounts (fuel : Nat) (s : State) : (runFor fuel s).accounts fuel s := by
  induction fuel generalizing s with
  | zero =>
    unfold runFor
    split
    · split
      · rename_i hr
        exact ⟨hr, 0, le_refl _, rfl⟩
      · rename_i hf
        exact ⟨hf, 0, le_refl _, rfl⟩
      · rename_i hr _
        exact ⟨hr, rfl⟩
    · rfl
  | succ k ih =>
    unfold runFor
    split
    · rename_i hc
      split
      · rename_i hr
        exact ⟨hr, 0, Nat.zero_le _, rfl⟩
      · rename_i hf
        exact ⟨hf, 0, Nat.zero_le _, rfl⟩
      · simp only
        split
        · rename_i t ht
          exact RunResult.accounts_step ht (ih t)
        · rename_i r ht
          rcases step_cases ht with ⟨-, h⟩ | ⟨-, -, h⟩ | ⟨i, -, -, -, h⟩ | ⟨w, -, -, -, h⟩
          · cases h
          · cases h
          · cases i <;> cases h
          · cases h
        · rename_i r ht
          rcases step_cases ht with ⟨-, h⟩ | ⟨-, -, h⟩ | ⟨i, -, -, -, h⟩ | ⟨w, -, -, -, h⟩
          · exact Host.Outcome.refused.inj h
          · cases h
          · cases i <;> cases h
          · cases h
    · rfl

end Sys2Proof.Machine
end

