-- ==== Sys2Proof/Tests/Slice0.lean ====
section
/-! SUPPORT. Tests. Expected results are those of spec/95_test_vectors.md (V and P entries, named in the comments) and of
the worked examples of the rules; and one witness for the hypotheses of each statement. -/

namespace Sys2Proof.Tests

open Sys2Proof.Machine

/-! ## Well-formedness: an ill-formed term for each check -/

theorem test_wf_imm_low : Instr.wellFormed (.addi 0 1 (-65)) = false := by decide
theorem test_wf_imm_high : Instr.wellFormed (.lw 0 1 64) = false := by decide
theorem test_wf_imm_sw : Instr.wellFormed (.sw 0 1 64) = false := by decide
theorem test_wf_imm_jeq : Instr.wellFormed (.jeq 0 1 (-65)) = false := by decide
theorem test_wf_imm_slti : Instr.wellFormed (.slti 0 1 64) = false := by decide
theorem test_wf_target_j : Instr.wellFormed (.j 8192) = false := by decide
theorem test_wf_target_jal : Instr.wellFormed (.jal 8192) = false := by decide

/-! ## Decode: each kind's word written out from its format (30_encoding.md R72 to R74) -/

theorem test_decode_add : decode 0b0000010100110000 = .valid (.add 1 2 3) := by decide
theorem test_decode_sub : decode 0b0000010100110001 = .valid (.sub 1 2 3) := by decide
theorem test_decode_or : decode 0b0000010100110010 = .valid (.or 1 2 3) := by decide
theorem test_decode_and : decode 0b0000010100110011 = .valid (.and 1 2 3) := by decide
theorem test_decode_slt : decode 0b0000010100110100 = .valid (.slt 1 2 3) := by decide
theorem test_decode_jr : decode 0b0001110000001000 = .valid (.jr 7) := by decide
/-- V0: bits 9:4 of `jr` are ignored. -/
theorem test_decode_jr_dirty : decode 0x1FF8 = .valid (.jr 7) := by decide
theorem test_decode_addi : decode 0b0010000010000101 = .valid (.addi 0 1 5) := by decide
theorem test_decode_j : decode 0b0101111111111111 = .valid (.j 8191) := by decide
theorem test_decode_jal : decode 0b0110000000100000 = .valid (.jal 32) := by decide
theorem test_decode_lw : decode 0b1000100100000101 = .valid (.lw 2 2 5) := by decide
theorem test_decode_sw : decode 0b1010000010000000 = .valid (.sw 0 1 0) := by decide
theorem test_decode_jeq : decode 0b1100000001111011 = .valid (.jeq 0 0 (-5)) := by decide
theorem test_decode_slti : decode 0b1110010101111111 = .valid (.slti 1 2 (-1)) := by decide
theorem test_decode_invalid : decode 0x0535 = .invalid 0x0535 := by decide
theorem test_decode_table_word : decodeTableWord 16 0x2085 = some (.addi 0 1 5) := by decide
theorem test_decode_table_word_invalid : decodeTableWord 16 0x0005 = none := by decide
/-- R88: the encoder stores the low 7 bits of the immediate. -/
theorem test_encode_addi : encode (.addi 1 1 (-1)) = 0x24FF := by decide
theorem test_encode_halt : encode (.j 1) = 0x4001 := by decide

/-! ## Helpers -/

/-- The next state, if there is one. -/
def nextOf (o : Host.Outcome State Fault Refusal) : Option State :=
  match o with
  | .next t => some t
  | .fault _ => none
  | .refused _ => none

/-- The reset state with a `pc` and the registers 1, 2 and 7. -/
def st (pc : Addr) (x1 x2 x7 : Word) : State :=
  { State.reset with pc := pc, regs := #v[0, x1, x2, 0, 0, 0, 0, x7] }

/-- The state after an instruction. -/
def after (i : Instr) (s : State) : State := (nextOf (exec i s)).getD s

/-- A level of one row of two ways of one word, empty: the level of R183. -/
def twoWay (s : State) : State := { s with l1 := CacheLevel.empty ⟨2, 2, 1⟩ }

/-- The levels of R186: L1 of one word, L2 of two rows of one word. -/
def twoLevels (s : State) : State :=
  { s with l1 := CacheLevel.empty ⟨1, 1, 1⟩, l2 := some (CacheLevel.empty ⟨2, 1, 1⟩) }

/-- A state whose configuration does not meet R141: the row count would be 0. -/
def illegal : State := { State.reset with l1 := CacheLevel.empty ⟨1, 2, 1⟩ }

/-! ## The instructions -/

/-- V1.1 and V1.5: the sum and the `pc` wrap. -/
theorem test_add_wraps :
    (nextOf (exec (.add 1 2 3) (st 8191 0xFFFF 1 0))).map (fun t => (t.readReg 3, t.pc)) = some (0, 0) := by decide
/-- V1.3: a result for register 0 is discarded. -/
theorem test_add_zero :
    (nextOf (exec (.add 1 2 0) (st 0 5 6 0))).map (fun t => (t.readReg 0, t.pc)) = some (0, 1) := by decide
/-- V1.6, V1.7. -/
theorem test_sub_wraps : (nextOf (exec (.sub 1 2 3) (st 0 0 1 0))).map (·.readReg 3) = some 0xFFFF := by decide
theorem test_sub_order : (nextOf (exec (.sub 1 2 3) (st 0 0x8000 1 0))).map (·.readReg 3) = some 0x7FFF := by decide
/-- V1.10, V1.11. -/
theorem test_or : (nextOf (exec (.or 1 2 3) (st 0 0xF0F0 0x0FF0 0))).map (·.readReg 3) = some 0xFFF0 := by decide
theorem test_and : (nextOf (exec (.and 1 2 3) (st 0 0xF0F0 0x0FF0 0))).map (·.readReg 3) = some 0x00F0 := by decide
/-- V2.1, V2.2. -/
theorem test_slt_unsigned : (nextOf (exec (.slt 1 2 3) (st 0 1 0xFFFF 0))).map (·.readReg 3) = some 1 := by decide
theorem test_slt_signed :
    (nextOf (exec (.slt 1 2 3) { st 0 1 0xFFFF 0 with opts := ⟨true, .lowest, .lowest⟩ })).map (·.readReg 3)
      = some 0 := by decide
/-- V2.9, V2.11. -/
theorem test_slti_minus_one : (nextOf (exec (.slti 1 2 (-1)) (st 0 0x1234 0 0))).map (·.readReg 2) = some 1 := by decide
theorem test_slti_high : (nextOf (exec (.slti 1 2 1) (st 0 0x8000 9 0))).map (·.readReg 2) = some 0 := by decide
/-- V3.2, V3.4. -/
theorem test_addi_wraps : (nextOf (exec (.addi 1 2 63) (st 0 0xFFC1 9 0))).map (·.readReg 2) = some 0 := by decide
theorem test_addi_negative : (nextOf (exec (.addi 1 1 (-1)) (st 0 0 0 0))).map (·.readReg 1) = some 0xFFFF := by decide
/-- V4.2, V4.2b. -/
theorem test_jr_drops : (nextOf (exec (.jr 1) (st 40 0x2005 0 0))).map (·.pc) = some 5 := by decide
theorem test_jr_top : (nextOf (exec (.jr 1) (st 40 0xFFFF 0 0))).map (·.pc) = some 8191 := by decide
/-- V4.3, V4.10. -/
theorem test_jeq_taken_back : (nextOf (exec (.jeq 0 0 (-5)) (st 2 0 0 0))).map (·.pc) = some 8190 := by decide
theorem test_jeq_not_taken_wraps : (nextOf (exec (.jeq 1 0 5) (st 8191 1 0 0))).map (·.pc) = some 0 := by decide
/-- V5.2, V5.4: the same word halts at its own address and jumps at another. -/
theorem test_j_halts :
    (nextOf (exec (.j 3) (st 3 0 0 0))).map (fun t => (t.pc, t.runState)) = some (3, .halted) := by decide
theorem test_j_jumps :
    (nextOf (exec (.j 3) (st 4 0 0 0))).map (fun t => (t.pc, t.runState)) = some (3, .running) := by decide
/-- V5.7, V5.8. -/
theorem test_jal_self :
    (nextOf (exec (.jal 5) (st 5 0 0 0))).map (fun t => (t.readReg 7, t.pc, t.runState)) = some (6, 5, .running) := by
  decide
theorem test_jal_top :
    (nextOf (exec (.jal 0) (st 8191 0 0 0))).map (fun t => (t.readReg 7, t.pc)) = some (0x2000, 0) := by decide
/-- V6.2: the value, the event and the way filled. -/
theorem test_lw_misses :
    (nextOf (exec (.lw 2 2 5) ((st 0 0 0x2003 0).writeMem 8 0xBEEF))).map
        (fun t => (t.readReg 2, t.trace, t.l1.rows[0]?))
      = some (0xBEEF, [.cache .L1 .miss 0 8 0], some ⟨[⟨true, 4, [0xBEEF]⟩], [0]⟩) := by decide
/-- V6.3: a load into register 0 fills the cache all the same. -/
theorem test_lw_zero :
    (nextOf (exec (.lw 0 0 8) ((st 0 0 0 0).writeMem 8 0xBEEF))).map
        (fun t => (t.readReg 0, t.trace.length, t.l1.rows[0]?))
      = some (0, 1, some ⟨[⟨true, 4, [0xBEEF]⟩], [0]⟩) := by decide
/-- V6.5. -/
theorem test_sw :
    (nextOf (exec (.sw 0 1 0) (st 2 7 0 0))).map (fun t => (t.readMem 0, t.trace, t.pc))
      = some (7, [.cache .L1 .sw 2 0 0], 3) := by decide
/-- V6.7: one `SW` per level, L1 first. -/
theorem test_sw_two_levels :
    (nextOf (exec (.sw 0 1 0) (twoLevels (st 2 7 0 0)))).map (fun t => t.trace)
      = some [.cache .L1 .sw 2 0 0, .cache .L2 .sw 2 0 0] := by decide

/-! ## One level, decomposition, replacement -/

/-- V7: rows not a power of two. -/
theorem test_decompose : (rowOf ⟨12, 1, 4⟩ 8191, tagOf ⟨12, 1, 4⟩ 8191, offsetOf ⟨12, 1, 4⟩ 8191) = (1, 682, 3) := by
  decide
/-- V7: one block. -/
theorem test_decompose_one_block :
    (rowOf ⟨8192, 1, 8192⟩ 4095, tagOf ⟨8192, 1, 8192⟩ 4095, offsetOf ⟨8192, 1, 8192⟩ 4095) = (0, 0, 4095) := by decide
/-- 44_cache_level.md R157: the row is full, the victim is the front of the recency list. -/
theorem test_evicts_least_recent :
    Row.install ⟨[⟨true, 0, [10]⟩, ⟨true, 1, [11]⟩], [1, 0]⟩ .lowest 0 2 [12]
      = ⟨[⟨true, 0, [10]⟩, ⟨true, 2, [12]⟩], [0, 1]⟩ := by decide
/-- V8 step 6: an invalid way is taken although another way holds the tag. -/
theorem test_store_makes_a_duplicate :
    Row.install ⟨[⟨true, 2, [1]⟩, ⟨false, 0, [0]⟩], [0]⟩ .lowest 0 2 [9]
      = ⟨[⟨true, 2, [1]⟩, ⟨true, 2, [9]⟩], [0, 1]⟩ := by decide

/-! ## Steps, reset and interfaces -/

theorem test_memory_canonical : Memory.write (Memory.write [] 5 1) 5 0 = [] := by decide
theorem test_reset_memory_wf : Memory.wf State.reset.mem = true := by decide
/-- S1: a step runs the word placed at `pc`. -/
theorem test_fetch_word_runs :
    (nextOf (step (State.reset.withFetchWord 16 0x2085))).map (fun t => (t.readReg 1, t.pc)) = some (5, 1) := by decide
/-- S1: `addi $1,$0,5` and `halt`, run to completion: the image, the run under a bound and its final state. -/
theorem test_addi_halt_runs_to_completion :
    runFor 2 (State.start CacheConfig.default OpenParams.default 0 0 [0x2085, 0x4001])
      = .final { st 1 5 0 0 with mem := [(0, 0x2085), (1, 0x4001)], runState := .halted } := by decide
/-- R254: the same run under a bound it exhausts is not finished. -/
theorem test_exhausted_run_is_not_finished :
    runFor 1 (State.start CacheConfig.default OpenParams.default 0 0 [0x2085, 0x4001])
      = .notFinished { st 1 5 0 0 with mem := [(0, 0x2085), (1, 0x4001)] } := by decide
/-- R226, P7: an invalid word is a fault and not a hang. -/
theorem test_run_reports_the_fault :
    runFor 3 (State.start CacheConfig.default OpenParams.default 0 0 [0x0005])
      = .fault (.invalidInstruction 0 5) { State.reset with mem := [(0, 5)] } := by decide
/-- S2, P2, R158: direct-mapped, two loads from 8, one from 10 (same row, another tag), one from 8: `MISS`, `HIT`, `MISS`
that evicts, `MISS`. -/
theorem test_direct_mapped_miss_hit_evict :
    let t := [(1, 8), (1, 8), (2, 10), (1, 8)].foldl (fun s (r, imm) => after (.lw 0 r imm) s)
      (((st 0 0 0 0).writeMem 8 0x1234).writeMem 10 0x5678)
    t.trace = [.cache .L1 .miss 0 8 0, .cache .L1 .hit 1 8 0, .cache .L1 .miss 2 10 0, .cache .L1 .miss 3 8 0]
      ∧ (t.readReg 1, t.readReg 2) = (0x1234, 0x5678) ∧ t.l1.rows[0]? = some ⟨[⟨true, 4, [0x1234]⟩], [0]⟩ := by decide
/-- R156, U15: a lookup and a read addressed to L2 where it is not configured: no state change but the diagnostic. -/
theorem test_invalid_selector_of_a_lookup :
    State.reset.lookup .L2 8 = (none, { State.reset with trace := [.invalidCacheSelector 2] }) := by decide
theorem test_invalid_selector_of_a_read :
    (State.reset.read .L2 8 0).2 = { State.reset with trace := [.invalidCacheSelector 2] } := by decide
/-- P7: the invalid word is reported and `pc` stays. -/
theorem test_invalid_word :
    (nextOf (step (State.reset.withFetchWord 16 0x0005))).map (fun t => (t.pc, t.runState, t.trace))
      = some (0, .running, [.invalidInstruction 0 5]) := by decide
/-- R142, R191: the configuration of S2 has two rows. -/
theorem test_config : configOfInts [2, 1, 1] = .ok (.l1Only ⟨2, 1, 1⟩) := by decide
theorem test_config_count : configOfInts [2, 1] = .error (.badCount 2) := by decide
/-- S1: the line `ram[0] = 16'b0010000010000101;`. -/
theorem test_image_line :
    parseImageLine ['r', 'a', 'm', '[', '0', ']', ' ', '=', ' ', '1', '6', '\'', 'b', '0', '0', '1', '0', '0', '0', '0', '0',
      '1', '0', '0', '0', '0', '1', '0', '1', ';'] = some (0, 0x2085) := by decide
/-- R198: the line `L1 MISS  pc:    0`, tab, `addr:    8`, tab, `row:   0`. -/
theorem test_render :
    renderEvent (.cache .L1 .miss 0 8 0)
      = some ['L', '1', ' ', 'M', 'I', 'S', 'S', ' ', ' ', 'p', 'c', ':', ' ', ' ', ' ', ' ', '0', '\t', 'a', 'd', 'd', 'r',
          ':', ' ', ' ', ' ', ' ', '8', '\t', 'r', 'o', 'w', ':', ' ', ' ', ' ', '0', '\n'] := by decide

/-! ## Witnesses: states and operands that meet the hypotheses of the statements, at boundary values -/

theorem witness_DecodeReadsEveryField :
    (0x0530 : Word).toNat / 8192 = 0 ∧ (0x0530 : Word).toNat % 16 = 0 ∧ (0x0531 : Word).toNat % 16 = 1
      ∧ (0x0532 : Word).toNat % 16 = 2 ∧ (0x0533 : Word).toNat % 16 = 3 ∧ (0x0534 : Word).toNat % 16 = 4
      ∧ (0x1FF8 : Word).toNat / 8192 = 0 ∧ (0x1FF8 : Word).toNat % 16 = 8 ∧ (0x1FFF : Word).toNat / 8192 = 0
      ∧ (0x1FFF : Word).toNat % 16 ∉ [0, 1, 2, 3, 4, 8] ∧ (0x2085 : Word).toNat / 8192 = 1
      ∧ (0x5FFF : Word).toNat / 8192 = 2 ∧ (0x6000 : Word).toNat / 8192 = 3 ∧ (0x8905 : Word).toNat / 8192 = 4
      ∧ (0xA080 : Word).toNat / 8192 = 5 ∧ (0xC07B : Word).toNat / 8192 = 6 ∧ (0xFFFF : Word).toNat / 8192 = 7 := by decide

theorem witness_DecodeEncodeRoundTrip :
    Instr.wellFormed (.addi 7 7 (-64)) = true ∧ Instr.wellFormed (.jal 8191) = true
      ∧ decode 0xFFFF = .valid (.slti 7 7 (-1)) ∧ decode 0x1FF8 = .valid (.jr 7) := by decide

theorem witness_SignExtensionOfImmediates :
    (63 : BitVec 7).toNat ≤ 63 ∧ 64 ≤ (64 : BitVec 7).toNat ∧ 64 ≤ (127 : BitVec 7).toNat := by decide

theorem witness_exec_answers_next :
    exec (.add 1 2 3) (st 0 1 2 0) = .next (((st 0 1 2 0).writeReg 3 3).incrPc 1) ∧ writtenReg (.add 1 2 3) ≠ some 7 := by
  constructor
  · rw [exec_add]
    rfl
  · decide

theorem witness_StartOfARun :
    ([1, 2] : List Word).length ≤ 8192
      ∧ (State.start CacheConfig.default OpenParams.default 0 0 [1, 2]).level? 1 = some (CacheLevel.empty ⟨2, 1, 1⟩)
      ∧ (State.start (.l1AndL2 ⟨2, 1, 1⟩ ⟨4, 2, 1⟩) OpenParams.default 0 0 []).level? 2
        = some (CacheLevel.empty ⟨4, 2, 1⟩) := ⟨by decide, rfl, rfl⟩

theorem witness_SltResult :
    (st 0 1 2 0).opts.sltSigned = false ∧ ({ st 0 1 2 0 with opts := ⟨true, .lowest, .lowest⟩ } : State).opts.sltSigned = true := by
  decide

theorem witness_immFits : immFits (-64) = true ∧ immFits 63 = true ∧ immFits 0 = true := by decide

theorem witness_SltiResult :
    immFits (-1) = true ∧ (st 0 1 2 0).opts.sltSigned = false
      ∧ ({ st 0 1 2 0 with opts := ⟨true, .lowest, .lowest⟩ } : State).opts.sltSigned = true := by decide

theorem witness_JeqResult :
    immFits 63 = true ∧ (st 0 9 9 0).readReg 1 = (st 0 9 9 0).readReg 2
      ∧ (st 0 9 8 0).readReg 1 ≠ (st 0 9 8 0).readReg 2 := by decide

theorem witness_JumpResult : 8191 < 8192 ∧ 8191 ≠ (st 0 0 0 0).pc.toNat := by decide

theorem witness_JalResult : 8191 < 8192 ∧ 0 < 8192 := by decide

/-- The state after a load of address 8: a hit waits in L1. -/
def warm : State := after (.lw 0 1 8) (st 0 0 0 0)

theorem witness_LoadHitsL1 : warm.lookupLevel .L1 (effectiveAddr (warm.readReg 0) 8) = some 0 := by decide

/-- Two levels after `sw` to 11 and `lw` of 10: 11 is in L2 only (program P3). -/
def l2Only : State := after (.lw 0 2 10) (after (.sw 0 1 11) (twoLevels (st 0 9 0 0)))

theorem witness_LoadHitsL2 :
    l2Only.l2.isSome = true ∧ l2Only.opts.hitScan = .lowest
      ∧ l2Only.lookupLevel .L1 (effectiveAddr (l2Only.readReg 0) 11) = none
      ∧ l2Only.lookupLevel .L2 (effectiveAddr (l2Only.readReg 0) 11) = some 0
      ∧ (after (.lw 0 3 11) l2Only).readReg 0 = l2Only.readReg 0 := by decide

theorem witness_LoadMissesEveryLevel :
    State.reset.lookupLevel .L1 8 = none ∧ State.reset.l2 = none
      ∧ (twoLevels State.reset).lookupLevel .L1 8 = none ∧ (twoLevels State.reset).lookupLevel .L2 8 = none := by decide

theorem witness_StoreLeavesTheStoredWordInEveryLevel :
    (twoLevels (st 0 9 0 0)).inv = true
      ∧ exec (.sw 0 1 11) (twoLevels (st 0 9 0 0)) = .next (after (.sw 0 1 11) (twoLevels (st 0 9 0 0))) :=
  ⟨by decide, rfl⟩

theorem witness_StaleHitAfterStore :
    (twoWay (st 0 7 0 0)).l1 = CacheLevel.empty ⟨2, 2, 1⟩ ∧ (twoWay (st 0 7 0 0)).l2 = none
      ∧ (twoWay (st 0 7 0 0)).opts.hitScan = .lowest ∧ (twoWay (st 0 7 0 0)).opts.freeWayPick = .lowest
      ∧ (2 : Reg) ≠ 0 ∧ (2 : Reg) ≠ 1 ∧ (3 : Reg) ≠ 0
      ∧ (twoWay (st 0 7 0 0)).readReg 1 ≠ (twoWay (st 0 7 0 0)).readMem 8 := by decide

theorem witness_directMapped : warm.directMapped := by
  intro n l h
  rcases State.level?_cases h with ⟨-, rfl⟩ | ⟨-, h⟩
  · rfl
  · cases h

/-- A coherent state with a valid way. -/
theorem witness_coherent : warm.coherent := by
  have hw : warm.l1.rows = [⟨[⟨true, 4, [0]⟩], [0]⟩, ⟨[⟨false, 0, [0]⟩], []⟩] := by decide
  intro n l h
  rcases State.level?_cases h with ⟨-, rfl⟩ | ⟨-, h⟩
  · intro k r hk y hy hv
    rw [hw] at hk
    match k, hk with
    | 0, hk =>
      cases hk
      obtain rfl : y = ⟨true, 4, [0]⟩ := by simpa using hy
      decide
    | 1, hk =>
      cases hk
      obtain rfl : y = ⟨false, 0, [0]⟩ := by simpa using hy
      cases hv
  · cases h

theorem witness_DirectMappedLevelsStayCoherent :
    warm.inv = true ∧ warm.directMapped ∧ warm.coherent ∧ step warm = .next ((warm.writeReg 0 0).incrPc 1) :=
  ⟨by decide, witness_directMapped, witness_coherent, by
    have hd : decode warm.fetch = .valid (.add 0 0 0) := by decide
    have hc : warm.configLegal = true := by decide
    have hr : warm.runState = .running := by decide
    simp only [step, hc, hr, hd, if_true, exec_add]
    rfl⟩

theorem witness_legalLevel :
    legalLevel ⟨12, 1, 4⟩ = true ∧ legalLevel ⟨8192, 1, 8192⟩ = true ∧ legalLevel ⟨1, 1, 1⟩ = true := by decide

theorem witness_DecompositionIsBitSlicing :
    legalLevel ⟨16, 2, 4⟩ = true ∧ (⟨16, 2, 4⟩ : LevelParams).blockSize = 2 ^ 2 ∧ rowCount ⟨16, 2, 4⟩ = 2 ^ 1
      ∧ legalLevel ⟨8192, 1, 8192⟩ = true ∧ (⟨8192, 1, 8192⟩ : LevelParams).blockSize = 2 ^ 13
      ∧ rowCount ⟨8192, 1, 8192⟩ = 2 ^ 0 ∧ 13 ≤ 13 + 0 := by decide

theorem witness_LookupFindsAMatchingWay :
    warm.l1.rows[rowOf warm.l1.params 8]? = some ⟨[⟨true, 4, [0]⟩], [0]⟩ ∧ warm.l1.lookup .any 0 8 = some 0
      ∧ warm.l1.lookup .lowest 0 10 = none ∧ warm.level? LevelName.L1.number = some warm.l1
      ∧ (twoLevels State.reset).level? LevelName.L2.number = some (CacheLevel.empty ⟨2, 1, 1⟩) := by decide

theorem witness_DefaultsTakeTheLowestWay :
    Row.validAt ⟨[⟨true, 4, [0]⟩, ⟨false, 0, [0]⟩], [0]⟩ 1 = false
      ∧ Row.validAt ⟨[⟨true, 4, [0]⟩, ⟨false, 0, [0]⟩], [0]⟩ 0 = true := by decide

/-- A well-formed level with an invalid way, and one whose row is full. -/
theorem witness_InstallReplacesOneWay :
    (CacheLevel.empty ⟨2, 2, 1⟩).wf = true ∧ warm.l1.wf = true
      ∧ (⟨⟨1, 1, 1⟩, [⟨[⟨true, 4, [0]⟩], [0]⟩]⟩ : CacheLevel).wf = true := by decide

theorem witness_ValidWaysOnlyGrow :
    State.reset.inv = true ∧ State.reset.opts.freeWayPick = .lowest ∧ State.reset.validLow
      ∧ step State.reset = .next ((State.reset.writeReg 0 0).incrPc 1) := by
  refine ⟨by decide, rfl, ?_, by rfl⟩
  intro n l h r hr v w hvw hw
  rcases State.level?_cases h with ⟨-, rfl⟩ | ⟨-, h⟩
  · obtain rfl : r = emptyRow ⟨2, 1, 1⟩ := List.eq_of_mem_replicate hr
    obtain ⟨y, hy, hv⟩ := Row.validAt_iff.mp hw
    obtain rfl := List.eq_of_mem_replicate (List.mem_of_getElem? hy)
    cases hv
  · cases h

theorem witness_LevelsAreSelectedByNumber :
    (twoLevels State.reset).l2 = some (CacheLevel.empty ⟨2, 1, 1⟩) ∧ State.reset.l2 = none ∧ (0 : Nat) ≠ 1 ∧ (0 : Nat) ≠ 2
      ∧ (3 : Nat) ≠ 1 ∧ (3 : Nat) ≠ 2 ∧ (twoLevels State.reset).level? 2 = some (CacheLevel.empty ⟨2, 1, 1⟩) := by decide

theorem witness_StepKeepsTheInvariant :
    State.reset.inv = true ∧ step State.reset = .next ((State.reset.writeReg 0 0).incrPc 1)
      ∧ State.reset.level? 1 = some State.reset.l1 := ⟨by decide, by rfl, rfl⟩

theorem witness_StartHasTheInvariant :
    legalConfig (.l1AndL2 ⟨4, 2, 2⟩ ⟨16, 2, 4⟩) = true ∧ ([1] : List Word).length ≤ 8192 := by decide

/-- A running machine at a valid word and one at an invalid word, both with a legal configuration. -/
theorem witness_StepRunsTheDecodedInstruction :
    State.reset.configLegal = true ∧ State.reset.runState = .running
      ∧ decode (State.reset.readMem State.reset.pc) = .valid (.add 0 0 0)
      ∧ ((st 1 0 0 0).writeMem 1 5).configLegal = true ∧ ((st 1 0 0 0).writeMem 1 5).runState = .running
      ∧ decode (((st 1 0 0 0).writeMem 1 5).readMem 1) = .invalid 5 := by decide

theorem witness_StepIsTotalOnLegalConfigurations :
    illegal.level? 1 = some (CacheLevel.empty ⟨1, 2, 1⟩) ∧ ¬ 2 * 1 ≤ 1 ∧ illegal.configLegal = false
      ∧ legalLevel State.reset.l1.params = true ∧ State.reset.l2 = none := by decide

/-- A running machine at a halt, at a jump and at an ordinary word. -/
theorem witness_RunEndsExactlyAtAHalt :
    ((st 3 0 0 0).writeMem 3 0x4003).runState = .running ∧ (nextOf (step ((st 3 0 0 0).writeMem 3 0x4003))).isSome = true
      ∧ (nextOf (step ((st 4 0 0 0).writeMem 4 0x4003))).map (·.runState) = some .running := by decide

theorem witness_HaltedIsAbsorbing :
    (after (.j 3) (st 3 0 0 0)).configLegal = true ∧ (after (.j 3) (st 3 0 0 0)).runState = .halted := by decide

/-- A step that writes memory, one that appends two events, and one that does neither. -/
theorem witness_step_answers_next :
    (nextOf (step ((st 2 7 0 0).writeMem 2 0xA080))).map (·.readMem 0) = some 7
      ∧ (nextOf (step ((twoLevels (st 2 7 0 0)).writeMem 2 0xA080))).map (·.trace.length) = some 2
      ∧ (nextOf (step State.reset)).map (·.trace.length) = some 0 := by decide

theorem witness_OnlyLoadsAndStoresDriveTheCaches : usesCaches (.jal 5) = false ∧ usesCaches (.add 1 2 3) = false := by decide

theorem witness_ConfigurationIsConstant : core.run 0 State.reset = .next State.reset := rfl

theorem witness_StoreIsSeenByTheNextFetch :
    (st 8191 0x2085 0 0).configLegal = true ∧ (st 8191 0x2085 0 0).runState = .running
      ∧ (effectiveAddr ((st 8191 0x2085 0 0).readReg 0) 0).toNat = ((st 8191 0x2085 0 0).pc.toNat + 1) % 8192
      ∧ decode ((st 8191 0x2085 0 0).readReg 1) = .valid (.addi 0 1 5) := by decide

/-- The reset state with other tags and data in its invalid ways. -/
def scrambled : State :=
  { State.reset with l1 := ⟨⟨2, 1, 1⟩, [⟨[⟨false, 9, [1, 2]⟩], []⟩, ⟨[⟨false, 0, [0]⟩], []⟩]⟩ }

theorem witness_InvalidWaysAreUnobservable :
    State.reset.agrees scrambled ∧ State.reset ≠ scrambled
      ∧ step State.reset = .next ((State.reset.writeReg 0 0).incrPc 1) := by
  refine ⟨⟨rfl, rfl, rfl, rfl, ⟨rfl, ?_⟩, .none, rfl, rfl, rfl⟩, by decide, by rfl⟩
  refine .cons ⟨rfl, .cons ⟨rfl, fun h => by cases h⟩ .nil⟩ (.cons ⟨rfl, .cons ⟨rfl, fun h => by cases h⟩ .nil⟩ .nil)

theorem witness_ConfigurationFromIntegers :
    ([] : List Int).length ≠ 3 ∧ ([] : List Int).length ≠ 6 ∧ (-1 : Int) < 0 := by decide

theorem witness_ReadDeliversTheInstalledWord :
    warm.l1.rows[rowOf warm.l1.params 8]? = some ⟨[⟨true, 4, [0]⟩], [0]⟩
      ∧ (⟨[⟨true, 4, [0]⟩], [0]⟩ : Row).ways[0]? = some ⟨true, 4, [0]⟩
      ∧ (⟨true, 4, [0]⟩ : Way).data[(8 : Addr).toNat % 1]? = some 0
      ∧ (CacheLevel.empty ⟨16, 2, 4⟩).wf = true ∧ (11 : Addr).toNat / 4 = (8 : Addr).toNat / 4 := by decide

theorem witness_RecencyListsOfEveryRun :
    legalConfig CacheConfig.default = true ∧ ([] : List Word).length ≤ 8192
      ∧ core.run 1 (State.start CacheConfig.default OpenParams.default 0 0 [])
        = .next ((State.reset.writeReg 0 0).incrPc 1)
      ∧ ((State.reset.writeReg 0 0).incrPc 1).level? 1 = some State.reset.l1 :=
  ⟨by decide, by decide, by rfl, rfl⟩

theorem witness_ImageLoadsExactlyWhenInOrder : loadImage [] = .ok [] := rfl

end Sys2Proof.Tests
end

section
/-! ## The constants of a run (00_scope.md R7, R8; 10_state.md R20)

The cache configuration is read off the parameters of the levels, so the point is that no operation on a level changes
the parameters the level was allocated with. -/

namespace Sys2Proof.Machine

/-! ### Runs -/

/-- The steps of a run that answers a next state, first step first. -/
theorem core_run_succ_next {k : Nat} {s t : State} (h : core.run (k + 1) s = .next t) :
    ∃ u, step s = .next u ∧ core.run k u = .next t := by
  cases hs : step s with
  | next u => exact ⟨u, rfl, (core_run_succ k hs).symm.trans h⟩
  | fault r =>
    have hc : core.step s = .fault r := hs
    simp [Host.Core.run, hc] at h
  | refused r =>
    have hc : core.step s = .refused r := hs
    simp [Host.Core.run, hc] at h

/-- What every step keeps, every run keeps. -/
theorem core_run_keeps {P : State → Prop} (hstep : ∀ {s t : State}, step s = .next t → P s → P t) {k : Nat}
    {s t : State} (h : core.run k s = .next t) (hs : P s) : P t := by
  induction k generalizing s with
  | zero =>
    cases h
    exact hs
  | succ k ih =>
    obtain ⟨u, hu, ht⟩ := core_run_succ_next h
    exact ih ht (hstep hu hs)

/-! ### The configuration after each operation -/

theorem State.config_congr {s t : State} (h1 : t.l1.params = s.l1.params)
    (h2 : t.l2.map CacheLevel.params = s.l2.map CacheLevel.params) : t.config = s.config := by
  cases hs : s.l2 <;> cases ht : t.l2 <;> simp_all [State.config]

@[simp] theorem State.writeReg_config (s : State) (r : Reg) (v : Word) : (s.writeReg r v).config = s.config := rfl

@[simp] theorem State.setPc_config (s : State) (t : Int) : (s.setPc t).config = s.config := rfl

@[simp] theorem State.incrPc_config (s : State) (n : Int) : (s.incrPc n).config = s.config := rfl

@[simp] theorem State.writeMem_config (s : State) (a : Addr) (v : Word) : (s.writeMem a v).config = s.config := rfl

@[simp] theorem State.halt_config (s : State) : s.halt.config = s.config := rfl

@[simp] theorem State.emit_config (s : State) (e : Event) : (s.emit e).config = s.config := rfl

@[simp] theorem State.countAccess_config (s : State) : s.countAccess.config = s.config := rfl

@[simp] theorem State.raiseInvalidInstruction_config (s : State) (w : Word) :
    (s.raiseInvalidInstruction w).config = s.config := rfl

/-- An operation that keeps the parameters of the level it is applied to keeps the configuration. -/
theorem State.onLevel_config (s : State) (n : Nat) {f : CacheLevel → CacheLevel} (hf : ∀ l, (f l).params = l.params) :
    (s.onLevel n f).config = s.config := by
  have hc : CacheLevel.params ∘ f = CacheLevel.params := funext hf
  apply State.config_congr
  · by_cases hn : n = 1 <;> simp [State.onLevel, hn, hf]
  · by_cases hn : n = 2 <;> simp [State.onLevel, hn, hc]

@[simp] theorem State.touchLevel_config (s : State) (n : LevelName) (a : Addr) (w : Nat) :
    (s.touchLevel n a w).config = s.config :=
  s.onLevel_config n.number fun l => l.touch_params a w

@[simp] theorem State.installLevel_config (s : State) (n : LevelName) (a : Addr) :
    (s.installLevel n a).config = s.config :=
  s.onLevel_config n.number fun l => l.install_params _ _ s.mem a

@[simp] theorem State.storeLevel_config (s : State) (n : LevelName) (a : Addr) :
    (s.storeLevel n a).config = s.config := by
  simp [State.storeLevel]

@[simp] theorem State.cacheLoad_config (s : State) (a : Addr) : (s.cacheLoad a).2.config = s.config := by
  rcases s.cacheLoad_cases a with ⟨w, -, h⟩ | ⟨-, -, h⟩ | ⟨w, l, -, -, -, h⟩ | ⟨l, -, -, -, h⟩ <;> simp [h]

@[simp] theorem State.cacheStore_config (s : State) (a : Addr) (v : Word) : (s.cacheStore a v).config = s.config := by
  cases h : s.l2 <;> simp [State.cacheStore, h]

@[simp] theorem State.cacheLoad_opts (s : State) (a : Addr) : (s.cacheLoad a).2.opts = s.opts := by
  obtain ⟨-, -, -, -, hopts, -⟩ := s.cacheLoad_frame a
  exact hopts

@[simp] theorem State.cacheStore_opts (s : State) (a : Addr) (v : Word) : (s.cacheStore a v).opts = s.opts := by
  obtain ⟨-, -, -, -, hopts, -⟩ := s.cacheStore_frame a v
  exact hopts

/-! ### Instructions and steps -/

/-- `t` has the configuration and the open parameters of `s`. -/
def State.SameConstants (s t : State) : Prop := t.config = s.config ∧ t.opts = s.opts

theorem State.SameConstants.trans {s t u : State} (hst : s.SameConstants t) (htu : t.SameConstants u) :
    s.SameConstants u :=
  ⟨htu.1.trans hst.1, htu.2.trans hst.2⟩

/-- Every instruction completes, and keeps the constants of the run. -/
theorem exec_keeps_constants (i : Instr) (s : State) : ∃ t, exec i s = .next t ∧ s.SameConstants t := by
  cases i with
  | add a b c => exact ⟨_, exec_add a b c s, rfl, rfl⟩
  | sub a b c => exact ⟨_, exec_sub a b c s, rfl, rfl⟩
  | or a b c => exact ⟨_, exec_or a b c s, rfl, rfl⟩
  | and a b c => exact ⟨_, exec_and a b c s, rfl, rfl⟩
  | slt a b c => exact ⟨_, exec_slt a b c s, rfl, rfl⟩
  | jr a => exact ⟨_, exec_jr a s, rfl, rfl⟩
  | addi a b imm => exact ⟨_, exec_addi a b imm s, rfl, rfl⟩
  | j target =>
    refine ⟨_, exec_j target s, ?_⟩
    split
    · exact ⟨s.halt_config, s.halt_opts⟩
    · exact ⟨s.setPc_config target, s.setPc_opts target⟩
  | jal target => exact ⟨_, exec_jal target s, rfl, rfl⟩
  | lw a b imm => exact ⟨_, exec_lw a b imm s, State.cacheLoad_config s _, State.cacheLoad_opts s _⟩
  | sw a b imm => exact ⟨_, exec_sw a b imm s, State.cacheStore_config s _ _, State.cacheStore_opts s _ _⟩
  | jeq a b imm => exact ⟨_, exec_jeq a b imm s, rfl, rfl⟩
  | slti a b imm => exact ⟨_, exec_slti a b imm s, rfl, rfl⟩

theorem step_keeps_constants {s t : State} (h : step s = .next t) : s.SameConstants t := by
  obtain ⟨-, ht⟩ | ⟨-, -, ht⟩ | ⟨i, -, -, -, ht⟩ | ⟨w, -, -, -, ht⟩ := step_cases h
  · cases ht
  · cases ht
    exact ⟨rfl, rfl⟩
  · obtain ⟨u, hu, hsu⟩ := exec_keeps_constants i s
    cases ht.trans hu
    exact hsu
  · cases ht
    exact ⟨s.raiseInvalidInstruction_config w, s.raiseInvalidInstruction_opts w⟩

/-- Settles O56: every step keeps both, by the induction of `core_run_keeps`. -/
theorem configurationIsConstant : Obligations.ConfigurationIsConstant := by
  intro s t k h
  exact core_run_keeps (P := s.SameConstants) (fun hstep hs => hs.trans (step_keeps_constants hstep)) h ⟨rfl, rfl⟩

end Sys2Proof.Machine
end

section
/-! ## What an instruction can do (10_state.md R23, R25)

`Effect` says once, for all 13 kinds, which next state an instruction answers; the statements about registers, `pc`,
memory and the invariant each follow by its five cases. -/

namespace Sys2Proof.Machine

/-- `pc <- t` reduces `t` modulo 8192 (00_scope.md R10). -/
theorem State.setPc_emod (s : State) (t : Int) : s.setPc (t % 8192) = s.setPc t := by
  have hpc : BitVec.ofInt 13 (t % 8192) = BitVec.ofInt 13 t := by
    refine BitVec.eq_of_toNat_eq (Int.ofNat_inj.mp ?_)
    rw [toNat_ofInt_addr, toNat_ofInt_addr, Int.emod_emod]
  simp only [State.setPc, hpc]

/-- The next states of an instruction, by what they change: a register and `pc`; `pc` only; the run state only (the halt
form of `j`); what a load changes; what a store changes. -/
inductive Effect : Instr → State → State → Prop where
  | write {i : Instr} {s : State} {d : Reg} (hd : writtenReg i = some d) (v : Word) :
      Effect i s ((s.writeReg d v).setPc (nextPc i s))
  | jump {i : Instr} {s : State} (hd : writtenReg i = none) : Effect i s (s.setPc (nextPc i s))
  | halt (s : State) : Effect (.j s.pc.toNat) s s.halt
  | load (a b : Reg) (imm : Int) (s : State) : Effect (.lw a b imm) s
      (((s.cacheLoad (effectiveAddr (s.readReg a) imm)).2.writeReg b
        (s.cacheLoad (effectiveAddr (s.readReg a) imm)).1).incrPc 1)
  | store (a b : Reg) (imm : Int) (s : State) : Effect (.sw a b imm) s
      ((s.cacheStore (effectiveAddr (s.readReg a) imm) (s.readReg b)).incrPc 1)

/-- An instruction that writes one register and advances `pc` by 1. -/
theorem Effect.write_advance {i : Instr} {s : State} {d : Reg} (v : Word) (hd : writtenReg i = some d)
    (hpc : nextPc i s = (s.pc.toNat + 1) % 8192) : Effect i s ((s.writeReg d v).incrPc 1) := by
  have h := Effect.write (s := s) hd v
  rwa [hpc, State.setPc_emod] at h

/-- An instruction that only sets `pc`. -/
theorem Effect.jump_to {i : Instr} {s : State} (t : Int) (hd : writtenReg i = none) (hpc : nextPc i s = t % 8192) :
    Effect i s (s.setPc t) := by
  have h := Effect.jump (s := s) hd
  rwa [hpc, State.setPc_emod] at h

theorem exec_effect {i : Instr} {s t : State} (h : exec i s = .next t) : Effect i s t := by
  cases i with
  | add a b c => cases h; exact .write_advance _ rfl rfl
  | sub a b c => cases h; exact .write_advance _ rfl rfl
  | or a b c => cases h; exact .write_advance _ rfl rfl
  | and a b c => cases h; exact .write_advance _ rfl rfl
  | slt a b c => cases h; exact .write_advance _ rfl rfl
  | jr a => cases h; exact .jump_to _ rfl rfl
  | addi a b imm => cases h; exact .write_advance _ rfl rfl
  | j target =>
    rw [exec_j] at h
    split at h
    · next htarget => cases h; cases htarget; exact .halt s
    · cases h; exact .jump_to _ rfl rfl
  | jal target =>
    cases h
    have heff := Effect.write (i := .jal target) (s := s) rfl (linkValue s.pc)
    rwa [nextPc, State.setPc_emod] at heff
  | lw a b imm => cases h; exact .load a b imm s
  | sw a b imm => cases h; exact .store a b imm s
  | jeq a b imm =>
    cases h
    refine .jump_to _ rfl ?_
    simp [nextPc, condEqual]
  | slti a b imm => cases h; exact .write_advance _ rfl rfl

/-! ### Registers, `pc` and memory after an instruction -/

/-- A register that is not written reads as before. -/
theorem State.readReg_writeReg_other (s : State) {d r : Reg} (h : r ≠ d) (v : Word) :
    (s.writeReg d v).readReg r = s.readReg r := by
  rw [State.readReg_writeReg, if_neg h]
  split
  · next hr => cases hr; rfl
  · rfl

theorem Effect.readReg {i : Instr} {s t : State} (h : Effect i s t) {r : Reg} (hr : writtenReg i ≠ some r) :
    t.readReg r = s.readReg r := by
  have hne {d : Reg} (hd : writtenReg i = some d) : r ≠ d := fun hrd => hr (hrd ▸ hd)
  cases h with
  | write hd v => exact s.readReg_writeReg_other (hne hd) v
  | jump hd => rfl
  | halt => rfl
  | load a b imm =>
    obtain ⟨-, hregs, -⟩ := s.cacheLoad_frame (effectiveAddr (s.readReg a) imm)
    exact (State.readReg_writeReg_other _ (hne rfl) _).trans (State.readReg_congr hregs r)
  | store a b imm =>
    obtain ⟨-, hregs, -⟩ := s.cacheStore_frame (effectiveAddr (s.readReg a) imm) (s.readReg b)
    exact State.readReg_congr hregs r

/-- `pc` after `pc <- nextPc`: every value of the table is already reduced. -/
theorem nextPc_emod (i : Instr) (s : State) : nextPc i s % 8192 = nextPc i s := by
  cases i <;> exact Int.emod_emod _ _

theorem Effect.pc {i : Instr} {s t : State} (h : Effect i s t) : (t.pc.toNat : Int) = nextPc i s := by
  cases h with
  | write hd v => exact (toNat_ofInt_addr _).trans (nextPc_emod i s)
  | jump hd => exact (toNat_ofInt_addr _).trans (nextPc_emod i s)
  | halt =>
    have := s.pc.isLt
    simp only [State.halt_pc, nextPc]
    omega
  | load a b imm =>
    obtain ⟨hpc, -⟩ := s.cacheLoad_frame (effectiveAddr (s.readReg a) imm)
    simp only [State.incrPc_pc, State.writeReg_pc, hpc, toNat_ofInt_addr, nextPc]
  | store a b imm =>
    obtain ⟨hpc, -⟩ := s.cacheStore_frame (effectiveAddr (s.readReg a) imm) (s.readReg b)
    simp only [State.incrPc_pc, hpc, toNat_ofInt_addr, nextPc]

/-- Memory is as it was, or the instruction is a store and every other address than the stored one reads as before. -/
theorem Effect.mem {i : Instr} {s t : State} (h : Effect i s t) : t.mem = s.mem ∨
    ∃ a b imm, i = .sw a b imm ∧ ∀ x, x ≠ effectiveAddr (s.readReg a) imm → t.readMem x = s.readMem x := by
  cases h with
  | write hd v => exact .inl rfl
  | jump hd => exact .inl rfl
  | halt => exact .inl rfl
  | load a b imm =>
    obtain ⟨-, -, hmem, -⟩ := s.cacheLoad_frame (effectiveAddr (s.readReg a) imm)
    exact .inl hmem
  | store a b imm =>
    obtain ⟨-, -, hmem, -⟩ := s.cacheStore_frame (effectiveAddr (s.readReg a) imm) (s.readReg b)
    exact .inr ⟨a, b, imm, rfl, fun x hx => (State.readMem_congr (t := State.incrPc _ 1)
      (s := s.writeMem _ _) hmem x).trans (s.readMem_writeMem_other hx _)⟩

end Sys2Proof.Machine
end

section
/-! ## The invariant (10_state.md R30, 44_cache_level.md R153, 70_reset_and_hazards.md R256) -/

namespace Sys2Proof.Machine

theorem State.inv_iff {s : State} : s.inv = true ↔
    Memory.wf s.mem = true ∧ s.regs[0] = 0 ∧ s.l1.wf = true ∧ ∀ l, s.l2 = some l → l.wf = true := by
  simp only [State.inv, Bool.and_eq_true, decide_eq_true_eq, and_assoc]
  cases s.l2 <;> simp

/-- The invariant speaks of memory, the cell of register 0 and the levels only. -/
theorem State.inv_congr {s t : State} (hmem : t.mem = s.mem) (hcell : t.regs[0] = s.regs[0]) (hl1 : t.l1 = s.l1)
    (hl2 : t.l2 = s.l2) (h : s.inv = true) : t.inv = true := by
  rw [State.inv_iff] at h ⊢
  rwa [hmem, hcell, hl1, hl2]

/-- The operations on a level keep the invariant when they keep the level well-formed. -/
theorem State.inv_of_levels {s t : State} (h : s.inv = true) (hmem : t.mem = s.mem) (hregs : t.regs = s.regs)
    (hl1 : t.l1.wf = true) (hl2 : ∀ l, t.l2 = some l → l.wf = true) : t.inv = true := by
  obtain ⟨hm, hcell, -, -⟩ := State.inv_iff.mp h
  exact State.inv_iff.mpr ⟨hmem ▸ hm, hregs ▸ hcell, hl1, hl2⟩

theorem State.inv_level {s : State} (h : s.inv = true) {n : Nat} {l : CacheLevel} (hl : s.level? n = some l) :
    l.wf = true := by
  obtain ⟨-, -, hl1, hl2⟩ := State.inv_iff.mp h
  rcases State.level?_cases hl with ⟨-, rfl⟩ | ⟨-, h2⟩
  · exact hl1
  · exact hl2 l h2

/-- A touch of the way a lookup found keeps the level well-formed: that way is valid. -/
theorem CacheLevel.wf_touch_of_lookup {l : CacheLevel} {pick : WayPick} {free w : Nat} {a : Addr} (h : l.wf = true)
    (hw : l.lookup pick free a = some w) : (l.touch a w).wf = true := by
  obtain ⟨r, hr, hmatch⟩ := CacheLevel.lookup_some hw
  refine CacheLevel.wf_touch h fun q hq => ?_
  cases hr.symm.trans hq
  exact Row.validAt_of_matchesAt hmatch

theorem State.cacheLoad_keeps_inv {s : State} (a : Addr) (h : s.inv = true) : (s.cacheLoad a).2.inv = true := by
  obtain ⟨-, hregs, hmem, -⟩ := s.cacheLoad_frame a
  obtain ⟨-, -, hl1, hl2⟩ := State.inv_iff.mp h
  refine State.inv_of_levels h hmem hregs ?_ fun l' hl' => ?_
  · rcases s.cacheLoad_cases a with ⟨w, hw, hc⟩ | ⟨-, -, hc⟩ | ⟨w, l, -, -, -, hc⟩ | ⟨l, -, -, -, hc⟩ <;> rw [hc]
    · exact CacheLevel.wf_touch_of_lookup hl1 hw
    · exact CacheLevel.wf_install _ _ _ _ hl1
    · exact hl1
    · exact CacheLevel.wf_install _ _ _ _ hl1
  · rcases s.cacheLoad_cases a with ⟨w, -, hc⟩ | ⟨-, -, hc⟩ | ⟨w, l, -, h2, hw, hc⟩ | ⟨l, -, h2, -, hc⟩ <;>
      rw [hc] at hl'
    · exact hl2 l' hl'
    · exact hl2 l' hl'
    · rw [State.lookupLevel_L2 h2] at hw
      simp only [State.countAccess_l2, State.touchLevel_L2_l2, State.emit_l2, h2, Option.map_some,
        Option.some.injEq] at hl'
      exact hl' ▸ CacheLevel.wf_touch_of_lookup (hl2 l h2) hw
    · simp only [State.countAccess_l2, State.installLevel_L1_l2, State.installLevel_L2_l2, State.emit_l2, h2,
        Option.map_some, Option.some.injEq] at hl'
      exact hl' ▸ CacheLevel.wf_install _ _ _ _ (hl2 l h2)

theorem State.cacheStore_keeps_inv {s : State} (a : Addr) (v : Word) (h : s.inv = true) :
    (s.cacheStore a v).inv = true := by
  obtain ⟨-, hregs, hmem, -⟩ := s.cacheStore_frame a v
  obtain ⟨hm, hcell, hl1, hl2⟩ := State.inv_iff.mp h
  rw [State.inv_iff, hmem, hregs, State.cacheStore_l1, State.cacheStore_l2]
  refine ⟨Memory.wf_write v a.isLt hm, hcell, CacheLevel.wf_install _ _ _ _ hl1, fun l' hl' => ?_⟩
  obtain ⟨l, hl, rfl⟩ := Option.map_eq_some_iff.mp hl'
  exact CacheLevel.wf_install _ _ _ _ (hl2 l hl)

theorem Effect.keeps_inv {i : Instr} {s t : State} (h : Effect i s t) (hs : s.inv = true) : t.inv = true := by
  cases h with
  | write hd v => exact State.inv_congr (s := s) rfl (Regs.write_cell_zero _ _ _) rfl rfl hs
  | jump hd => exact State.inv_congr (s := s) rfl rfl rfl rfl hs
  | halt => exact State.inv_congr (s := s) rfl rfl rfl rfl hs
  | load a b imm =>
    have hload := State.cacheLoad_keeps_inv (effectiveAddr (s.readReg a) imm) hs
    exact State.inv_congr (s := (s.cacheLoad _).2) rfl (Regs.write_cell_zero _ _ _) rfl rfl hload
  | store a b imm =>
    have hstore := State.cacheStore_keeps_inv (effectiveAddr (s.readReg a) imm) (s.readReg b) hs
    exact State.inv_congr (s := s.cacheStore _ _) rfl rfl rfl rfl hstore

theorem step_keeps_inv {s t : State} (h : step s = .next t) (hs : s.inv = true) : t.inv = true := by
  obtain ⟨-, ht⟩ | ⟨-, -, ht⟩ | ⟨i, -, -, -, ht⟩ | ⟨w, -, -, -, ht⟩ := step_cases h
  · cases ht
  · cases ht
    exact hs
  · exact (exec_effect ht.symm).keeps_inv hs
  · cases ht
    exact State.inv_congr (s := s) rfl rfl rfl rfl hs

/-- In a state with the invariant a recency list holds exactly the valid ways, once each. -/
theorem State.inv_recency {s : State} (h : s.inv = true) {n : Nat} {l : CacheLevel} (hl : s.level? n = some l) {r : Row}
    (hr : r ∈ l.rows) :
    (∀ w, w ∈ r.recency ↔ r.validAt w = true) ∧ r.recency.Nodup ∧ r.recency.length ≤ l.params.assoc := by
  obtain ⟨-, -, hrows⟩ := CacheLevel.wf_iff.mp (State.inv_level h hl)
  obtain ⟨-, hnodup, hvalid, -⟩ := Row.wf_iff.mp (hrows r hr)
  exact ⟨hvalid, hnodup, Row.length_recency_le (hrows r hr)⟩

/-- Settles O44: an instruction's effect keeps the invariant, and the invariant contains the shape of every row. -/
theorem stepKeepsTheInvariant : Obligations.StepKeepsTheInvariant :=
  ⟨fun _ _ hs h => step_keeps_inv h hs, fun _ hs _ _ hl _ hr => State.inv_recency hs hl hr⟩

end Sys2Proof.Machine
end

section
/-! ## Registers, program counter and memory after an instruction (10_state.md R22 to R26) -/

namespace Sys2Proof.Machine

/-- Settles O9: the table is `Effect.pc`. -/
theorem programCounterUpdates : Obligations.ProgramCounterUpdates :=
  ⟨fun _ _ => ⟨toNat_ofInt_addr _, rfl, rfl, rfl, rfl, rfl, rfl, rfl, rfl⟩, fun _ _ _ h => (exec_effect h).pc,
    fun _ _ => rfl⟩

/-- Settles O10: the register case of an instruction's effect is `Effect.readReg`. -/
theorem onlyTheDestinationRegisterChanges : Obligations.OnlyTheDestinationRegisterChanges :=
  fun _ _ _ h _ hr => (exec_effect h).readReg hr

/-- Settles O55: only the store case of an instruction's effect changes memory. -/
theorem onlyStoresChangeMemory : Obligations.OnlyStoresChangeMemory := by
  intro s t h
  obtain ⟨-, ht⟩ | ⟨-, -, ht⟩ | ⟨i, -, -, hdecode, ht⟩ | ⟨w, -, -, -, ht⟩ := step_cases h
  · cases ht
  · cases ht
    exact .inl rfl
  · rcases (exec_effect ht.symm).mem with hmem | ⟨a, b, imm, rfl, hother⟩
    · exact .inl hmem
    · exact .inr ⟨a, b, imm, hdecode, hother⟩
  · cases ht
    exact .inl rfl

/-- Settles O8: the read after a write, and a write touches the register field only. -/
theorem registerWriteStoresOrDiscards : Obligations.RegisterWriteStoresOrDiscards := by
  intro s d v
  have hwrote : s.wrote (s.writeReg d v) d v := by
    refine ⟨fun hd => ?_, fun r hr => s.readReg_writeReg_other hr v, rfl⟩
    rw [State.readReg_writeReg, if_neg hd, if_pos rfl]
  exact ⟨hwrote, ⟨rfl, rfl, rfl, rfl, rfl, rfl, rfl⟩, rfl, rfl⟩

end Sys2Proof.Machine
end

section
/-! ## Simulations

A relation between states whose two sides answer alike and which every operation keeps is kept by every instruction and
every step. The machine changes State through the named operations only, so this is proved once, for all such
relations. -/

namespace Sys2Proof.Machine

/-! ### The four cases of a load as equations (45_cache_hierarchy.md R175) -/

theorem State.cacheLoad_of_hit_L1 {s : State} {a : Addr} {w : Nat} (h1 : s.lookupLevel .L1 a = some w) :
    s.cacheLoad a = (s.readLevel .L1 a w, ((s.emit (s.cacheEvent .L1 .hit a)).touchLevel .L1 a w).countAccess) := by
  rcases s.cacheLoad_cases a with ⟨v, h, hc⟩ | ⟨h, -, -⟩ | ⟨v, l, h, -, -, -⟩ | ⟨l, h, -, -, -⟩ <;> cases h1.symm.trans h
  exact hc

theorem State.cacheLoad_of_miss_without_L2 {s : State} {a : Addr} (h1 : s.lookupLevel .L1 a = none)
    (h2 : s.l2 = none) :
    s.cacheLoad a = (s.readMem a, ((s.emit (s.cacheEvent .L1 .miss a)).installLevel .L1 a).countAccess) := by
  rcases s.cacheLoad_cases a with ⟨v, h, -⟩ | ⟨-, -, hc⟩ | ⟨v, l, -, h, -, -⟩ | ⟨l, -, h, -, -⟩
  · cases h1.symm.trans h
  · exact hc
  · cases h2.symm.trans h
  · cases h2.symm.trans h

theorem State.cacheLoad_of_hit_L2 {s : State} {a : Addr} {w : Nat} {l : CacheLevel}
    (h1 : s.lookupLevel .L1 a = none) (h2 : s.l2 = some l) (h3 : s.lookupLevel .L2 a = some w) :
    s.cacheLoad a = (s.readLevel .L2 a w,
      (((s.emit (s.cacheEvent .L1 .miss a)).emit (s.cacheEvent .L2 .hit a)).touchLevel .L2 a w).countAccess) := by
  rcases s.cacheLoad_cases a with ⟨v, h, -⟩ | ⟨-, h, -⟩ | ⟨v, m, -, -, h, hc⟩ | ⟨m, -, -, h, -⟩
  · cases h1.symm.trans h
  · cases h2.symm.trans h
  · cases h3.symm.trans h
    exact hc
  · cases h3.symm.trans h

theorem State.cacheLoad_of_miss_L2 {s : State} {a : Addr} {l : CacheLevel}
    (h1 : s.lookupLevel .L1 a = none) (h2 : s.l2 = some l) (h3 : s.lookupLevel .L2 a = none) :
    s.cacheLoad a = (s.readMem a,
      ((((s.emit (s.cacheEvent .L1 .miss a)).emit (s.cacheEvent .L2 .miss a)).installLevel .L2 a).installLevel
        .L1 a).countAccess) := by
  rcases s.cacheLoad_cases a with ⟨v, h, -⟩ | ⟨-, h, -⟩ | ⟨v, m, -, -, h, -⟩ | ⟨m, -, -, -, hc⟩
  · cases h1.symm.trans h
  · cases h2.symm.trans h
  · cases h3.symm.trans h
  · exact hc

/-! ### The cases of a step as equations (70_reset_and_hazards.md R243) -/

theorem step_of_halted {s : State} (hc : s.configLegal = true) (hr : s.runState = .halted) : step s = .next s := by
  simp [step, hc, hr, stepHalted]

theorem step_of_valid {s : State} {i : Instr} (hc : s.configLegal = true) (hr : s.runState = .running)
    (hd : decode s.fetch = .valid i) : step s = exec i s := by
  simp [step, hc, hr, hd]

theorem step_of_invalid {s : State} {w : Word} (hc : s.configLegal = true) (hr : s.runState = .running)
    (hd : decode s.fetch = .invalid w) : step s = .next (s.raiseInvalidInstruction w) := by
  simp [step, hc, hr, hd, stepInvalid]

/-! ### Simulations -/

/-- Related states answer alike, and every operation keeps the relation. A way is read only when a lookup found it. -/
structure Simulation (R : State → State → Prop) : Prop where
  pc {s s' : State} : R s s' → s.pc = s'.pc
  opts {s s' : State} : R s s' → s.opts = s'.opts
  runState {s s' : State} : R s s' → s.runState = s'.runState
  configLegal {s s' : State} : R s s' → s.configLegal = s'.configLegal
  hasL2 {s s' : State} : R s s' → s.l2.isSome = s'.l2.isSome
  readReg {s s' : State} : R s s' → ∀ r, s.readReg r = s'.readReg r
  readMem {s s' : State} : R s s' → ∀ a, s.readMem a = s'.readMem a
  lookupLevel {s s' : State} : R s s' → ∀ n a, s.lookupLevel n a = s'.lookupLevel n a
  readLevel {s s' : State} : R s s' → ∀ {n a w}, s.lookupLevel n a = some w → s.readLevel n a w = s'.readLevel n a w
  cacheEvent {s s' : State} : R s s' → ∀ n st a, s.cacheEvent n st a = s'.cacheEvent n st a
  writeReg {s s' : State} : R s s' → ∀ r v, R (s.writeReg r v) (s'.writeReg r v)
  setPc {s s' : State} : R s s' → ∀ t, R (s.setPc t) (s'.setPc t)
  writeMem {s s' : State} : R s s' → ∀ a v, R (s.writeMem a v) (s'.writeMem a v)
  halt {s s' : State} : R s s' → R s.halt s'.halt
  emit {s s' : State} : R s s' → ∀ e, R (s.emit e) (s'.emit e)
  countAccess {s s' : State} : R s s' → R s.countAccess s'.countAccess
  touchLevel {s s' : State} : R s s' → ∀ n a w, R (s.touchLevel n a w) (s'.touchLevel n a w)
  installLevel {s s' : State} : R s s' → ∀ n a, R (s.installLevel n a) (s'.installLevel n a)

namespace Simulation
variable {R : State → State → Prop} (hR : Simulation R) {s s' t : State} (h : R s s')
include hR h

theorem incrPc (n : Int) : R (s.incrPc n) (s'.incrPc n) := by
  simp only [State.incrPc, ← hR.pc h]
  exact hR.setPc h _

theorem fetch : s.fetch = s'.fetch := by
  simp only [State.fetch, ← hR.pc h, hR.readMem h]

theorem l2_eq_none (h2 : s.l2 = none) : s'.l2 = none := by
  have hsome := hR.hasL2 h
  rwa [h2, Option.isSome_none, eq_comm, Option.isSome_eq_false_iff, Option.isNone_iff_eq_none] at hsome

theorem l2_eq_some {l : CacheLevel} (h2 : s.l2 = some l) : ∃ l', s'.l2 = some l' := by
  have hsome := hR.hasL2 h
  rwa [h2, Option.isSome_some, eq_comm, Option.isSome_iff_exists] at hsome

theorem raiseInvalidInstruction (w : Word) : R (s.raiseInvalidInstruction w) (s'.raiseInvalidInstruction w) := by
  simp only [State.raiseInvalidInstruction, ← hR.pc h]
  exact hR.emit h _

theorem cacheLoad (a : Addr) :
    (s.cacheLoad a).1 = (s'.cacheLoad a).1 ∧ R (s.cacheLoad a).2 (s'.cacheLoad a).2 := by
  have hlookup (n : LevelName) := hR.lookupLevel h n a
  have hevent (n : LevelName) (st : CacheStatus) := hR.cacheEvent h n st a
  rcases s.cacheLoad_cases a with ⟨w, h1, hc⟩ | ⟨h1, h2, hc⟩ | ⟨w, l, h1, h2, h3, hc⟩ | ⟨l, h1, h2, h3, hc⟩
  · rw [hc, State.cacheLoad_of_hit_L1 (hlookup .L1 ▸ h1), ← hevent]
    exact ⟨hR.readLevel h h1, hR.countAccess (hR.touchLevel (hR.emit h _) _ _ _)⟩
  · rw [hc, State.cacheLoad_of_miss_without_L2 (hlookup .L1 ▸ h1) (hR.l2_eq_none h h2), ← hevent]
    exact ⟨hR.readMem h a, hR.countAccess (hR.installLevel (hR.emit h _) _ _)⟩
  · obtain ⟨l', h2'⟩ := hR.l2_eq_some h h2
    rw [hc, State.cacheLoad_of_hit_L2 (hlookup .L1 ▸ h1) h2' (hlookup .L2 ▸ h3), ← hevent, ← hevent]
    exact ⟨hR.readLevel h h3, hR.countAccess (hR.touchLevel (hR.emit (hR.emit h _) _) _ _ _)⟩
  · obtain ⟨l', h2'⟩ := hR.l2_eq_some h h2
    rw [hc, State.cacheLoad_of_miss_L2 (hlookup .L1 ▸ h1) h2' (hlookup .L2 ▸ h3), ← hevent, ← hevent]
    exact ⟨hR.readMem h a,
      hR.countAccess (hR.installLevel (hR.installLevel (hR.emit (hR.emit h _) _) _ _) _ _)⟩

theorem storeLevel (n : LevelName) (a : Addr) : R (s.storeLevel n a) (s'.storeLevel n a) := by
  simp only [State.storeLevel, ← hR.cacheEvent h]
  exact hR.emit (hR.installLevel h n a) _

theorem cacheStore (a : Addr) (v : Word) : R (s.cacheStore a v) (s'.cacheStore a v) := by
  have hL1 := hR.storeLevel (hR.writeMem h a v) .L1 a
  cases h2 : s.l2 with
  | none =>
    simp only [State.cacheStore, h2, hR.l2_eq_none h h2]
    exact hR.countAccess hL1
  | some l =>
    obtain ⟨l', h2'⟩ := hR.l2_eq_some h h2
    simp only [State.cacheStore, h2, h2']
    exact hR.countAccess (hR.storeLevel hL1 .L2 a)

/-- An instruction that writes a register and advances `pc`. -/
theorem write_advance (d : Reg) {v v' : Word} (hv : v = v') :
    R ((s.writeReg d v).incrPc 1) ((s'.writeReg d v').incrPc 1) :=
  hv ▸ hR.incrPc (hR.writeReg h d v) 1

theorem exec {i : Instr} (ht : exec i s = .next t) : ∃ t', Machine.exec i s' = .next t' ∧ R t t' := by
  have hreg := hR.readReg h
  have hpc := hR.pc h
  cases i with
  | add a b c => cases ht; exact ⟨_, exec_add a b c s', hR.write_advance h c (by rw [hreg, hreg])⟩
  | sub a b c => cases ht; exact ⟨_, exec_sub a b c s', hR.write_advance h c (by rw [hreg, hreg])⟩
  | or a b c => cases ht; exact ⟨_, exec_or a b c s', hR.write_advance h c (by rw [hreg, hreg])⟩
  | and a b c => cases ht; exact ⟨_, exec_and a b c s', hR.write_advance h c (by rw [hreg, hreg])⟩
  | slt a b c => cases ht; exact ⟨_, exec_slt a b c s', hR.write_advance h c (by rw [hreg, hreg, hR.opts h])⟩
  | jr a => cases ht; exact ⟨_, exec_jr a s', hreg a ▸ hR.setPc h _⟩
  | addi a b imm => cases ht; exact ⟨_, exec_addi a b imm s', hR.write_advance h b (by rw [hreg])⟩
  | j target =>
    rw [exec_j] at ht
    refine ⟨_, exec_j target s', ?_⟩
    rw [← hpc]
    split at ht
    · next htarget => cases ht; rw [if_pos htarget]; exact hR.halt h
    · next htarget => cases ht; rw [if_neg htarget]; exact hR.setPc h _
  | jal target => cases ht; exact ⟨_, exec_jal target s', hpc ▸ hR.setPc (hR.writeReg h _ _) _⟩
  | lw a b imm =>
    cases ht
    obtain ⟨hword, hload⟩ := hR.cacheLoad h (effectiveAddr (s.readReg a) imm)
    refine ⟨_, exec_lw a b imm s', ?_⟩
    rw [← hreg]
    exact hR.write_advance hload b hword
  | sw a b imm =>
    cases ht
    refine ⟨_, exec_sw a b imm s', ?_⟩
    rw [← hreg, ← hreg]
    exact hR.incrPc (hR.cacheStore h _ _) 1
  | jeq a b imm =>
    cases ht
    refine ⟨_, exec_jeq a b imm s', ?_⟩
    rw [← hreg, ← hreg]
    exact hR.incrPc h _
  | slti a b imm => cases ht; exact ⟨_, exec_slti a b imm s', hR.write_advance h b (by rw [hreg, hR.opts h])⟩

theorem step (ht : step s = .next t) : ∃ t', Machine.step s' = .next t' ∧ R t t' := by
  have hconfig := hR.configLegal h
  have hrun := hR.runState h
  have hfetch := hR.fetch h
  obtain ⟨-, ht⟩ | ⟨hc, hr, ht⟩ | ⟨i, hc, hr, hd, ht⟩ | ⟨w, hc, hr, hd, ht⟩ := step_cases ht
  · cases ht
  · cases ht
    exact ⟨s', step_of_halted (hconfig ▸ hc) (hrun ▸ hr), h⟩
  · rw [step_of_valid (hconfig ▸ hc) (hrun ▸ hr) (hfetch ▸ hd)]
    exact hR.exec h ht.symm
  · cases ht
    exact ⟨_, step_of_invalid (hconfig ▸ hc) (hrun ▸ hr) (hfetch ▸ hd), hR.raiseInvalidInstruction h w⟩

end Simulation

end Sys2Proof.Machine
end

section
/-! ## States that differ only in the tag and data of invalid ways (10_state.md R36, 44_cache_level.md R146)

A simulation, built up as the state is: ways, rows, levels, the operations on a state, instructions, a step. A lookup
matches valid ways only and a read is of a way a lookup found, so the answers are equal and the relation is kept. -/

namespace Sys2Proof.Machine

/-! ### Lists related element by element -/

theorem forall₂_getElem? {α β : Type} {R : α → β → Prop} {xs : List α} {ys : List β} (h : List.Forall₂ R xs ys)
    (k : Nat) : Option.Rel R xs[k]? ys[k]? := by
  induction h generalizing k with
  | nil => exact .none
  | cons hxy _ ih =>
    cases k with
    | zero => exact .some hxy
    | succ k => exact ih k

theorem forall₂_modify {α β : Type} {R : α → β → Prop} {xs : List α} {ys : List β} (h : List.Forall₂ R xs ys)
    {f : α → α} {g : β → β} (hfg : ∀ x y, R x y → R (f x) (g y)) (k : Nat) :
    List.Forall₂ R (xs.modify k f) (ys.modify k g) := by
  induction h generalizing k with
  | nil => simp
  | cons hxy hrest ih =>
    cases k with
    | zero => exact .cons (hfg _ _ hxy) hrest
    | succ k => exact .cons hxy (ih k)

theorem forall₂_set {α β : Type} {R : α → β → Prop} {xs : List α} {ys : List β} (h : List.Forall₂ R xs ys)
    {x : α} {y : β} (hxy : R x y) (k : Nat) : List.Forall₂ R (xs.set k x) (ys.set k y) := by
  rw [List.set_eq_modify, List.set_eq_modify]
  exact forall₂_modify h (fun _ _ _ => hxy) k

theorem isSome_eq_of_rel {α β : Type} {R : α → β → Prop} {x : Option α} {y : Option β} (h : Option.Rel R x y) :
    x.isSome = y.isSome := by
  cases h <;> rfl

/-! ### Rows -/

theorem Way.agrees_refl (y : Way) : y.agrees y := ⟨rfl, fun _ => rfl⟩

theorem Row.agrees_validAt {r q : Row} (h : r.agrees q) (w : Nat) : r.validAt w = q.validAt w := by
  have hw := forall₂_getElem? h.2 w
  unfold Row.validAt
  generalize r.ways[w]? = y, q.ways[w]? = z at hw
  cases hw with
  | none => rfl
  | some hyz => exact hyz.1

/-- A valid way is the same way in both rows. -/
theorem Row.agrees_valid_way {r q : Row} (h : r.agrees q) {w : Nat} (hv : r.validAt w = true) :
    r.ways[w]? = q.ways[w]? := by
  have hw := forall₂_getElem? h.2 w
  unfold Row.validAt at hv
  generalize r.ways[w]? = y, q.ways[w]? = z at hw hv
  cases hw with
  | none => rfl
  | some hyz => rw [hyz.2 hv]

theorem Row.agrees_matchesAt {r q : Row} (h : r.agrees q) (tag w : Nat) : r.matchesAt tag w = q.matchesAt tag w := by
  cases hv : r.validAt w with
  | true => simp only [Row.matchesAt, Row.agrees_valid_way h hv]
  | false =>
    have invalid_no_match {p : Row} (hp : p.validAt w = false) : p.matchesAt tag w = false := by
      rw [← Bool.not_eq_true] at hp ⊢
      exact mt Row.validAt_of_matchesAt hp
    rw [invalid_no_match hv, invalid_no_match (Row.agrees_validAt h w ▸ hv)]

theorem Row.agrees_matching {r q : Row} (h : r.agrees q) (tag : Nat) : r.matching tag = q.matching tag := by
  simp only [Row.matching, h.2.length_eq, Row.agrees_matchesAt h]

theorem Row.agrees_choose {r q : Row} (h : r.agrees q) (pick : WayPick) (free : Nat) :
    r.choose pick free = q.choose pick free := by
  have hfree : r.free = q.free := by simp only [Row.free, h.2.length_eq, Row.agrees_validAt h]
  simp only [Row.choose, hfree, h.1]

theorem Row.agrees_touch {r q : Row} (h : r.agrees q) (w : Nat) : (r.touch w).agrees (q.touch w) :=
  ⟨by simp only [Row.touch, h.1], h.2⟩

theorem Row.agrees_put {r q : Row} (h : r.agrees q) (w tag : Nat) (data : List Word) :
    (r.put w tag data).agrees (q.put w tag data) := by
  have hways := forall₂_set h.2 (Way.agrees_refl ⟨true, tag, data⟩) w
  exact Row.agrees_touch (r := { r with ways := r.ways.set w _ }) (q := { q with ways := q.ways.set w _ })
    ⟨h.1, hways⟩ w

theorem Row.agrees_install {r q : Row} (h : r.agrees q) (pick : WayPick) (free tag : Nat) (data : List Word) :
    (r.install pick free tag data).agrees (q.install pick free tag data) := by
  simp only [Row.install, ← Row.agrees_choose h]
  cases r.choose pick free with
  | none => exact h
  | some w => exact Row.agrees_put h w tag data

/-! ### Levels -/

theorem CacheLevel.agrees_rowAt {l m : CacheLevel} (h : l.agrees m) (a : Addr) :
    Option.Rel Row.agrees (l.rowAt a) (m.rowAt a) := by
  simp only [CacheLevel.rowAt, ← h.1]
  exact forall₂_getElem? h.2 _

theorem CacheLevel.agrees_lookup {l m : CacheLevel} (h : l.agrees m) (pick : WayPick) (free : Nat) (a : Addr) :
    l.lookup pick free a = m.lookup pick free a := by
  have hrow := CacheLevel.agrees_rowAt h a
  simp only [CacheLevel.lookup, ← h.1]
  generalize l.rowAt a = r, m.rowAt a = q at hrow
  cases hrow with
  | none => rfl
  | some hrq => simp only [Row.agrees_matching hrq]

/-- A read of the way a lookup found answers the same word. -/
theorem CacheLevel.agrees_readWay {l m : CacheLevel} (h : l.agrees m) {pick : WayPick} {free w : Nat} {a : Addr}
    (hw : l.lookup pick free a = some w) : l.readWay a w = m.readWay a w := by
  obtain ⟨r, hr, hmatch⟩ := CacheLevel.lookup_some hw
  have hrow := CacheLevel.agrees_rowAt h a
  simp only [CacheLevel.readWay, ← h.1]
  rw [hr] at hrow ⊢
  generalize m.rowAt a = q at hrow
  cases hrow with
  | some hrq => simp only [Row.agrees_valid_way hrq (Row.validAt_of_matchesAt hmatch)]

theorem CacheLevel.agrees_touch {l m : CacheLevel} (h : l.agrees m) (a : Addr) (w : Nat) :
    (l.touch a w).agrees (m.touch a w) := by
  refine ⟨h.1, ?_⟩
  simp only [CacheLevel.touch, ← h.1]
  exact forall₂_modify h.2 (fun _ _ hrq => Row.agrees_touch hrq w) _

theorem CacheLevel.agrees_install {l m : CacheLevel} (h : l.agrees m) (pick : WayPick) (free : Nat) (mem : Memory)
    (a : Addr) : (l.install pick free mem a).agrees (m.install pick free mem a) := by
  refine ⟨h.1, ?_⟩
  simp only [CacheLevel.install, ← h.1]
  exact forall₂_modify h.2 (fun _ _ hrq => Row.agrees_install hrq _ _ _ _) _

/-! ### The answers of two states that agree -/

theorem State.agrees_readReg {s s' : State} (h : s.agrees s') (r : Reg) : s.readReg r = s'.readReg r := by
  obtain ⟨-, hregs, -⟩ := h
  exact State.readReg_congr hregs r

theorem State.agrees_readMem {s s' : State} (h : s.agrees s') (a : Addr) : s.readMem a = s'.readMem a := by
  obtain ⟨-, -, hmem, -⟩ := h
  exact State.readMem_congr hmem a

theorem State.agrees_level? {s s' : State} (h : s.agrees s') (n : LevelName) :
    Option.Rel CacheLevel.agrees (s.level? n.number) (s'.level? n.number) := by
  obtain ⟨-, -, -, -, hl1, hl2, -⟩ := h
  cases n with
  | L1 => exact .some hl1
  | L2 => exact hl2

theorem State.agrees_configLegal {s s' : State} (h : s.agrees s') : s.configLegal = s'.configLegal := by
  obtain ⟨-, -, -, -, hl1, hl2, -⟩ := h
  simp only [State.configLegal, ← hl1.1]
  generalize s.l2 = l, s'.l2 = m at hl2
  cases hl2 with
  | none => rfl
  | some hlm => simp only [hlm.1]

theorem State.agrees_cacheEvent {s s' : State} (h : s.agrees s') (n : LevelName) (st : CacheStatus) (a : Addr) :
    s.cacheEvent n st a = s'.cacheEvent n st a := by
  have hlevel := State.agrees_level? h n
  obtain ⟨hpc, -⟩ := h
  simp only [State.cacheEvent, State.rowIndex, ← hpc]
  generalize s.level? n.number = l, s'.level? n.number = m at hlevel
  cases hlevel with
  | none => rfl
  | some hlm => simp only [hlm.1]

theorem State.agrees_lookupLevel {s s' : State} (h : s.agrees s') (n : LevelName) (a : Addr) :
    s.lookupLevel n a = s'.lookupLevel n a := by
  have hlevel := State.agrees_level? h n
  obtain ⟨-, -, -, -, -, -, -, hopts, hdraws⟩ := h
  simp only [State.lookupLevel, State.lookup, State.queryLevel, ← hopts, ← hdraws]
  generalize s.level? n.number = l, s'.level? n.number = m at hlevel
  cases hlevel with
  | none => rfl
  | some hlm => exact CacheLevel.agrees_lookup hlm _ _ a

theorem State.agrees_readLevel {s s' : State} (h : s.agrees s') {n : LevelName} {a : Addr} {w : Nat}
    (hw : s.lookupLevel n a = some w) : s.readLevel n a w = s'.readLevel n a w := by
  have hlevel := State.agrees_level? h n
  simp only [State.lookupLevel, State.lookup, State.readLevel, State.read, State.queryLevel] at hw ⊢
  generalize s.level? n.number = l, s'.level? n.number = m at hlevel hw
  cases hlevel with
  | none => rfl
  | some hlm => exact CacheLevel.agrees_readWay hlm hw

/-! ### The operations on two states that agree -/

section
variable {s s' : State} (h : s.agrees s')
include h

theorem State.agrees_writeReg (r : Reg) (v : Word) : (s.writeReg r v).agrees (s'.writeReg r v) := by
  obtain ⟨hpc, hregs, hrest⟩ := h
  exact ⟨hpc, congrArg (Regs.write · r v) hregs, hrest⟩

theorem State.agrees_setPc (t : Int) : (s.setPc t).agrees (s'.setPc t) := by
  obtain ⟨-, hrest⟩ := h
  exact ⟨rfl, hrest⟩

theorem State.agrees_writeMem (a : Addr) (v : Word) : (s.writeMem a v).agrees (s'.writeMem a v) := by
  obtain ⟨hpc, hregs, hmem, hrest⟩ := h
  exact ⟨hpc, hregs, congrArg (Memory.write · a.toNat v) hmem, hrest⟩

theorem State.agrees_halt : s.halt.agrees s'.halt := by
  obtain ⟨hpc, hregs, hmem, -, hrest⟩ := h
  exact ⟨hpc, hregs, hmem, rfl, hrest⟩

theorem State.agrees_emit (e : Event) : (s.emit e).agrees (s'.emit e) := by
  obtain ⟨hpc, hregs, hmem, hrun, hl1, hl2, htrace, hrest⟩ := h
  exact ⟨hpc, hregs, hmem, hrun, hl1, hl2, congrArg (· ++ [e]) htrace, hrest⟩

theorem State.agrees_countAccess : s.countAccess.agrees s'.countAccess := by
  obtain ⟨hpc, hregs, hmem, hrun, hl1, hl2, htrace, hopts, hdraws⟩ := h
  exact ⟨hpc, hregs, hmem, hrun, hl1, hl2, htrace, hopts, congrArg (· + 1) hdraws⟩

/-- An operation on a level that keeps the relation of levels keeps that of states. -/
theorem State.agrees_onLevel (n : LevelName) {f g : CacheLevel → CacheLevel}
    (hfg : ∀ l m, l.agrees m → (f l).agrees (g m)) : (s.onLevel n.number f).agrees (s'.onLevel n.number g) := by
  obtain ⟨hpc, hregs, hmem, hrun, hl1, hl2, htrace, hrest⟩ := h
  cases n with
  | L1 => exact ⟨hpc, hregs, hmem, hrun, hfg _ _ hl1, hl2, htrace, hrest⟩
  | L2 =>
    refine ⟨hpc, hregs, hmem, hrun, hl1, ?_, ?_, hrest⟩
    · simp only [State.onLevel, LevelName.number, if_true]
      generalize s.l2 = l, s'.l2 = m at hl2
      cases hl2 with
      | none => exact .none
      | some hlm => exact .some (hfg _ _ hlm)
    · simp only [State.onLevel, LevelName.number, State.level?_two, ← htrace, isSome_eq_of_rel hl2]

theorem State.agrees_touchLevel (n : LevelName) (a : Addr) (w : Nat) :
    (s.touchLevel n a w).agrees (s'.touchLevel n a w) :=
  State.agrees_onLevel h n fun _ _ hlm => CacheLevel.agrees_touch hlm a w

theorem State.agrees_installLevel (n : LevelName) (a : Addr) : (s.installLevel n a).agrees (s'.installLevel n a) := by
  obtain ⟨-, -, hmem, -, -, -, -, hopts, hdraws⟩ := id h
  simp only [State.installLevel, ← hmem, ← hopts, ← hdraws]
  exact State.agrees_onLevel h n fun _ _ hlm => CacheLevel.agrees_install hlm _ _ _ a

end

/-- Agreement outside the invalid ways is a simulation. -/
theorem State.agrees_simulation : Simulation State.agrees where
  pc := fun ⟨hpc, _⟩ => hpc
  opts := fun ⟨_, _, _, _, _, _, _, hopts, _⟩ => hopts
  runState := fun ⟨_, _, _, hrun, _⟩ => hrun
  configLegal := State.agrees_configLegal
  hasL2 := fun ⟨_, _, _, _, _, hl2, _⟩ => isSome_eq_of_rel hl2
  readReg := State.agrees_readReg
  readMem := State.agrees_readMem
  lookupLevel := State.agrees_lookupLevel
  readLevel := State.agrees_readLevel
  cacheEvent := State.agrees_cacheEvent
  writeReg := State.agrees_writeReg
  setPc := State.agrees_setPc
  writeMem := State.agrees_writeMem
  halt := State.agrees_halt
  emit := State.agrees_emit
  countAccess := State.agrees_countAccess
  touchLevel := State.agrees_touchLevel
  installLevel := State.agrees_installLevel

/-- Settles O58: the agreement of the two states is a simulation, and a simulation carries over to a step. -/
theorem invalidWaysAreUnobservable : Obligations.InvalidWaysAreUnobservable :=
  fun _ _ _ h ht => State.agrees_simulation.step h ht

end Sys2Proof.Machine
end

section
/-! ## Register 0 (10_state.md R21)

The cell of register 0 is representation only: a state and the same state with another word in the cell answer alike, so
setting the cell is a simulation. -/

namespace Sys2Proof.Machine

/-- The state with a word put into the cell of register 0. -/
def State.setZeroCell (s : State) (v : Word) : State := { s with regs := s.regs.set 0 v }

theorem Regs.read_set_zero (x : Vector Word 8) (v : Word) (r : Reg) : Regs.read (x.set 0 v) r = Regs.read x r := by
  by_cases hr : r = 0
  · rw [hr, Regs.read_zero, Regs.read_zero]
  · have hne : (0 : Nat) ≠ r.val := fun h => hr (Fin.ext h.symm)
    simp [Regs.read, hr, hne]

theorem Regs.write_set_zero (x : Vector Word 8) (v : Word) (d : Reg) (u : Word) :
    Regs.write (x.set 0 v) d u = (Regs.write x d u).set 0 v := by
  by_cases hd : d = 0
  · simp [Regs.write, hd]
  · have hne : (0 : Nat) ≠ d.val := fun h => hd (Fin.ext h.symm)
    simp only [Regs.write, hd, if_false]
    exact Vector.set_comm _ _ hne

theorem State.setZeroCell_readReg (s : State) (v : Word) (r : Reg) : (s.setZeroCell v).readReg r = s.readReg r :=
  Regs.read_set_zero s.regs v r

theorem State.setZeroCell_writeReg (s : State) (v : Word) (d : Reg) (u : Word) :
    (s.setZeroCell v).writeReg d u = (s.writeReg d u).setZeroCell v := by
  simp only [State.writeReg, State.setZeroCell, Regs.write_set_zero]

/-- A lookup depends on the level, the open parameters and the number of the access. -/
theorem State.lookupLevel_congr {s t : State} {n : LevelName} (hlevel : t.level? n.number = s.level? n.number)
    (hopts : t.opts = s.opts) (hdraws : t.draws = s.draws) (a : Addr) : s.lookupLevel n a = t.lookupLevel n a := by
  simp only [State.lookupLevel, State.lookup, State.queryLevel, hlevel, hopts, hdraws]
  cases s.level? n.number <;> rfl

/-- A read of a way depends on the level only. -/
theorem State.readLevel_congr {s t : State} {n : LevelName} (hlevel : t.level? n.number = s.level? n.number)
    (a : Addr) (w : Nat) : s.readLevel n a w = t.readLevel n a w := by
  simp only [State.readLevel, State.read, State.queryLevel, hlevel]
  cases s.level? n.number <;> rfl

/-- Setting the cell of register 0 is a simulation. -/
theorem State.setZeroCell_simulation (v : Word) : Simulation fun s s' => s' = s.setZeroCell v where
  pc h := h ▸ rfl
  opts h := h ▸ rfl
  runState h := h ▸ rfl
  configLegal h := h ▸ rfl
  hasL2 h := h ▸ rfl
  readReg {s _} h r := h ▸ (s.setZeroCell_readReg v r).symm
  readMem h _ := h ▸ rfl
  lookupLevel {s _} h _ a := h ▸ State.lookupLevel_congr (s := s) (t := s.setZeroCell v) rfl rfl rfl a
  readLevel {s _} h _ a w _ := h ▸ State.readLevel_congr (s := s) (t := s.setZeroCell v) rfl a w
  cacheEvent h _ _ _ := h ▸ rfl
  writeReg {s _} h r u := h ▸ s.setZeroCell_writeReg v r u
  setPc h _ := h ▸ rfl
  writeMem h _ _ := h ▸ rfl
  halt h := h ▸ rfl
  emit h _ := h ▸ rfl
  countAccess h := h ▸ rfl
  touchLevel h _ _ _ := h ▸ rfl
  installLevel h _ _ := h ▸ rfl

theorem Effect.keeps_zero_cell {i : Instr} {s t : State} (h : Effect i s t) : t.regs[0] = s.regs[0] := by
  cases h with
  | write hd v => exact Regs.write_cell_zero _ _ _
  | jump hd => rfl
  | halt => rfl
  | load a b imm =>
    obtain ⟨-, hregs, -⟩ := s.cacheLoad_frame (effectiveAddr (s.readReg a) imm)
    simp only [State.incrPc_regs, State.writeReg_regs, Regs.write_cell_zero, hregs]
  | store a b imm =>
    obtain ⟨-, hregs, -⟩ := s.cacheStore_frame (effectiveAddr (s.readReg a) imm) (s.readReg b)
    simp only [State.incrPc_regs, hregs]

/-- Settles O7: no instruction reaches the cell, and whatever the cell holds, every instruction does the same. -/
theorem registerZeroIsHardWired : Obligations.RegisterZeroIsHardWired := by
  refine fun s => ⟨rfl, fun _ => rfl, fun i t h => ⟨rfl, (exec_effect h).keeps_zero_cell, fun v => ?_⟩⟩
  obtain ⟨t', ht', rfl⟩ := (State.setZeroCell_simulation v).exec rfl h
  exact ht'

end Sys2Proof.Machine
end

section
/-! ## The start of a run (10_state.md R33 to R37, 70_reset_and_hazards.md R240) -/

namespace Sys2Proof.Machine

/-- A run of writes: the words written from `base` on, and memory as before behind them. -/
theorem Memory.read_writeFrom (vs : List Word) {m : Memory} {base a : Nat} (ha : base ≤ a) :
    Memory.read (Memory.writeFrom m base vs) a = vs.getD (a - base) (Memory.read m a) := by
  induction vs generalizing m base with
  | nil => rfl
  | cons v vs ih =>
    simp only [Memory.writeFrom]
    by_cases hbase : a = base
    · rw [hbase, Memory.read_writeFrom_below vs (Nat.lt_succ_self base), Memory.read_write_same, Nat.sub_self,
        List.getD_cons_zero]
    · have hsub : a - base = (a - (base + 1)) + 1 := by omega
      rw [ih (by omega), Memory.read_write_other m hbase, hsub, List.getD_cons_succ]

theorem Memory.read_filledFrom (fill : Word) {n base a : Nat} (hlow : base ≤ a) (hhigh : a < base + n) :
    Memory.read ((List.range' base n).map fun k => (k, fill)) a = fill := by
  induction n generalizing base with
  | zero => omega
  | succ n ih =>
    rw [List.range'_succ, List.map_cons, Memory.read]
    split
    · rfl
    · exact ih (by omega) (by omega)

theorem Memory.read_filled (fill : Word) {a : Nat} (ha : a < memSize) : Memory.read (Memory.filled fill) a = fill := by
  unfold Memory.filled
  split
  · next hfill => exact hfill.symm
  · rw [List.range_eq_range']
    exact Memory.read_filledFrom fill (Nat.zero_le a) (by omega)

section
variable {cfg : CacheConfig} {opts : OpenParams} {regFill memFill : Word} {image : List Word}

theorem State.start_readReg {r : Reg} (hr : r ≠ 0) :
    (State.start cfg opts regFill memFill image).readReg r = regFill := by
  have hne : (0 : Nat) ≠ r.val := fun h => hr (Fin.ext h.symm)
  simp [State.readReg, Regs.read, State.start, hr, hne]

theorem State.start_readMem (a : Addr) :
    (State.start cfg opts regFill memFill image).readMem a = image.getD a.toNat memFill := by
  simp only [State.readMem, State.start]
  rw [Memory.read_writeFrom image (Nat.zero_le _), Memory.read_filled memFill a.isLt, Nat.sub_zero]

theorem State.start_config : (State.start cfg opts regFill memFill image).config = cfg := by
  cases cfg <;> rfl

/-- Every configured level starts empty. -/
theorem State.start_level {n : Nat} {l : CacheLevel}
    (hl : (State.start cfg opts regFill memFill image).level? n = some l) : l = CacheLevel.empty l.params := by
  rcases State.level?_cases hl with ⟨-, rfl⟩ | ⟨-, h2⟩
  · rfl
  · obtain ⟨p, -, rfl⟩ := Option.map_eq_some_iff.mp h2
    rfl

/-- A legal configuration starts with the invariant. -/
theorem State.start_inv (hcfg : legalConfig cfg = true) (himage : image.length ≤ 8192) :
    (State.start cfg opts regFill memFill image).inv = true := by
  have hmem := Memory.wf_writeFrom image (base := 0) (by rw [Nat.zero_add]; exact himage) (Memory.wf_filled memFill)
  refine State.inv_iff.mpr ⟨hmem, rfl, ?_⟩
  cases cfg with
  | l1Only p => exact ⟨CacheLevel.wf_empty hcfg, fun l hl => by cases hl⟩
  | l1AndL2 p q =>
    obtain ⟨hp, hq⟩ := Bool.and_eq_true_iff.mp hcfg
    exact ⟨CacheLevel.wf_empty hp, fun l hl => by cases hl; exact CacheLevel.wf_empty hq⟩

end

theorem CacheLevel.length_rows_empty (p : LevelParams) : (CacheLevel.empty p).rows.length = rowCount p :=
  List.length_replicate

/-- A row of an empty level: its recency list is empty and all of its ways are invalid (10_state.md R36). -/
theorem CacheLevel.row_of_empty {p : LevelParams} {r : Row} (hr : r ∈ (CacheLevel.empty p).rows) :
    r.recency = [] ∧ r.ways.length = p.assoc ∧ ∀ w, r.validAt w = false := by
  obtain rfl : r = emptyRow p := List.eq_of_mem_replicate hr
  refine ⟨rfl, List.length_replicate, fun w => Bool.eq_false_iff.mpr fun hvalid => ?_⟩
  obtain ⟨y, hy, hyvalid⟩ := Row.validAt_iff.mp hvalid
  obtain rfl : y = emptyWay p := List.eq_of_mem_replicate (List.mem_of_getElem? hy)
  cases hyvalid

theorem State.reset_eq_start :
    State.reset = State.start CacheConfig.default OpenParams.default regReset memReset [] := rfl

/-- Settles O12: the fields of the start, and its levels are the empty ones. -/
theorem startOfARun : Obligations.StartOfARun := by
  refine ⟨fun cfg opts regFill memFill image _ => ⟨rfl, rfl, rfl, fun _ hr => State.start_readReg hr,
    State.start_readMem, rfl, State.start_config, rfl, fun n l hl => ?_⟩, State.reset_eq_start⟩
  rw [State.start_level hl]
  exact ⟨CacheLevel.length_rows_empty _, fun r hr => CacheLevel.row_of_empty hr⟩

/-- Settles O11: both fields stand in the definition of the start. -/
theorem resetEntersAtZero : Obligations.ResetEntersAtZero :=
  ⟨⟨rfl, rfl, rfl⟩, fun _ _ _ _ _ => ⟨rfl, rfl, rfl⟩⟩

/-- Settles O45: `State.reset` is one of the starts, and empty levels of a legal configuration are well-formed. -/
theorem startHasTheInvariant : Obligations.StartHasTheInvariant :=
  ⟨State.reset_eq_start ▸ State.start_inv (by decide) (by decide),
    fun _ _ _ _ _ hcfg himage => State.start_inv hcfg himage⟩

/-- Settles O46: the start has the invariant, every step keeps it, and it contains the shape of the recency lists. -/
theorem recencyListsOfEveryRun : Obligations.RecencyListsOfEveryRun := by
  intro cfg opts regFill memFill image k t hcfg himage hrun n l hl r hr
  have hinv : t.inv = true := core_run_keeps (P := (·.inv = true)) step_keeps_inv hrun
    (State.start_inv hcfg himage)
  exact State.inv_recency hinv hl hr

/-- Settles O52, by induction on the number of steps. -/
theorem haltedIsAbsorbing : Obligations.HaltedIsAbsorbing := by
  intro s k hc hr
  induction k with
  | zero => rfl
  | succ k ih => exact (core_run_succ k (step_of_halted hc hr)).trans ih

end Sys2Proof.Machine
end

section
/-! ## A store and the next fetch (20_memory.md R47, R54)

Memory is written at once and the fetch reads it directly, so the caches play no part. -/

namespace Sys2Proof.Machine

theorem State.configLegal_eq (s : State) : s.configLegal = legalConfig s.config := by
  cases h : s.l2 <;> simp [State.configLegal, State.config, legalConfig, h]

/-- Whether a state is refused is a constant of the run. -/
theorem State.SameConstants.configLegal {s t : State} (h : s.SameConstants t) : t.configLegal = s.configLegal := by
  rw [State.configLegal_eq, State.configLegal_eq, h.1]

@[simp] theorem State.readMem_cacheStore_same (s : State) (a : Addr) (v : Word) : (s.cacheStore a v).readMem a = v := by
  obtain ⟨-, -, hmem, -⟩ := s.cacheStore_frame a v
  exact (State.readMem_congr (s := s.writeMem a v) hmem a).trans (s.readMem_writeMem_same a v)

/-- A store to the address `pc` advances to is what the next fetch reads. -/
theorem State.fetch_after_store {s : State} {a : Addr} (ha : a.toNat = (s.pc.toNat + 1) % 8192) (v : Word) :
    ((s.cacheStore a v).incrPc 1).fetch = v := by
  obtain ⟨hpc, -⟩ := s.cacheStore_frame a v
  have hnext : ((s.cacheStore a v).incrPc 1).pc = a := by
    refine BitVec.eq_of_toNat_eq (Int.ofNat_inj.mp ?_)
    rw [State.incrPc_pc, hpc, toNat_ofInt_addr, ha]
    rfl
  rw [State.fetch, hnext]
  exact s.readMem_cacheStore_same a v

/-- Settles O57: the next fetch reads the stored word, and a store keeps the machine running and its configuration
legal, so the next step executes what the word decodes to. -/
theorem storeIsSeenByTheNextFetch : Obligations.StoreIsSeenByTheNextFetch := by
  intro a b imm s hc hr ha
  obtain ⟨t, ht, hconstants⟩ := exec_keeps_constants (.sw a b imm) s
  cases (exec_sw a b imm s).symm.trans ht
  have hfetch := State.fetch_after_store ha (s.readReg b)
  obtain ⟨-, -, -, hrun, -⟩ := s.cacheStore_frame (effectiveAddr (s.readReg a) imm) (s.readReg b)
  exact ⟨_, ht, hfetch, fun i hi =>
    step_of_valid (hconstants.configLegal.trans hc) (hrun.trans hr) ((congrArg decode hfetch).trans hi)⟩

end Sys2Proof.Machine
end

section
/-! ## What a word stands for (30_encoding.md R83, R88, R89)

`Denotes` lists the words of each kind by format (R72 to R74). The decoder computes exactly this relation, and every
statement about the codec is read off it. -/

namespace Sys2Proof.Machine

/-- The word stands for the instruction or, with an unused function code, for the invalid instruction. The fields `b` and
`c` of a `jr` word are arbitrary (D26). -/
inductive Denotes : Word → Decoded → Prop
  | add (a b c : Reg) : Denotes (encodeR a b c funcAdd) (.valid (.add a b c))
  | sub (a b c : Reg) : Denotes (encodeR a b c funcSub) (.valid (.sub a b c))
  | or (a b c : Reg) : Denotes (encodeR a b c funcOr) (.valid (.or a b c))
  | and (a b c : Reg) : Denotes (encodeR a b c funcAnd) (.valid (.and a b c))
  | slt (a b c : Reg) : Denotes (encodeR a b c funcSlt) (.valid (.slt a b c))
  | jr (a b c : Reg) : Denotes (encodeR a b c funcJr) (.valid (.jr a))
  | invalid (a b c : Reg) {f : BitVec 4} (hf : f.toNat ∉ [0, 1, 2, 3, 4, 8]) :
      Denotes (encodeR a b c f) (.invalid (encodeR a b c f))
  | addi (a b : Reg) {imm : Int} (h : immFits imm = true) : Denotes (encodeI opAddi a b imm) (.valid (.addi a b imm))
  | j {t : Nat} (h : targetFits t = true) : Denotes (encodeJ opJ t) (.valid (.j t))
  | jal {t : Nat} (h : targetFits t = true) : Denotes (encodeJ opJal t) (.valid (.jal t))
  | lw (a b : Reg) {imm : Int} (h : immFits imm = true) : Denotes (encodeI opLw a b imm) (.valid (.lw a b imm))
  | sw (a b : Reg) {imm : Int} (h : immFits imm = true) : Denotes (encodeI opSw a b imm) (.valid (.sw a b imm))
  | jeq (a b : Reg) {imm : Int} (h : immFits imm = true) : Denotes (encodeI opJeq a b imm) (.valid (.jeq a b imm))
  | slti (a b : Reg) {imm : Int} (h : immFits imm = true) : Denotes (encodeI opSlti a b imm) (.valid (.slti a b imm))

/-! ### Immediates and targets (R78, R79) -/

theorem immFits_iff {imm : Int} : immFits imm = true ↔ -64 ≤ imm ∧ imm ≤ 63 := by simp [immFits]

theorem targetFits_iff {t : Nat} : targetFits t = true ↔ t < 8192 := decide_eq_true_iff

theorem sext7_of_le {v : BitVec 7} (h : v.toNat ≤ 63) : sext7 v = v.toNat := if_pos h

theorem sext7_of_ge {v : BitVec 7} (h : 64 ≤ v.toNat) : sext7 v = (v.toNat : Int) - 128 := if_neg (by omega)

theorem immFits_sext7 (v : BitVec 7) : immFits (sext7 v) = true := by
  have hv := v.isLt
  rw [immFits_iff, sext7]
  split <;> omega

theorem sext7_emod (v : BitVec 7) : sext7 v % 128 = v.toNat := by
  have hv := v.isLt
  rw [sext7]
  split <;> omega

/-- An immediate in range is the value of its low seven bits. -/
theorem sext7_eq_of_emod {v : BitVec 7} {imm : Int} (h : immFits imm = true) (hv : imm % 128 = v.toNat) :
    sext7 v = imm := by
  obtain ⟨hlow, hhigh⟩ := immFits_iff.mp h
  obtain ⟨hlow', hhigh'⟩ := immFits_iff.mp (immFits_sext7 v)
  have hmod := sext7_emod v
  omega

theorem targetFits_fieldImm13 (w : Word) : targetFits (fieldImm13 w).toNat = true :=
  targetFits_iff.mpr (fieldImm13 w).isLt

/-! ### The fields of an encoded word -/

theorem regField_val (w : Word) (k : Nat) : (regField w k).val = w.toNat / 2 ^ k % 8 := rfl

theorem fieldA_encodeR (a b c : Reg) (f : BitVec 4) : fieldA (encodeR a b c f) = a := by
  have := f.isLt
  rw [fieldA_eq, Fin.ext_iff, regField_val, encodeR_toNat]
  omega

theorem fieldB_encodeR (a b c : Reg) (f : BitVec 4) : fieldB (encodeR a b c f) = b := by
  have := f.isLt
  rw [fieldB_eq, Fin.ext_iff, regField_val, encodeR_toNat]
  omega

theorem fieldC_encodeR (a b c : Reg) (f : BitVec 4) : fieldC (encodeR a b c f) = c := by
  have := f.isLt
  rw [fieldC_eq, Fin.ext_iff, regField_val, encodeR_toNat]
  omega

theorem fieldA_encodeI (op : BitVec 3) (a b : Reg) (imm : Int) : fieldA (encodeI op a b imm) = a := by
  rw [fieldA_eq, Fin.ext_iff, regField_val, encodeI_toNat]
  omega

theorem fieldB_encodeI (op : BitVec 3) (a b : Reg) (imm : Int) : fieldB (encodeI op a b imm) = b := by
  rw [fieldB_eq, Fin.ext_iff, regField_val, encodeI_toNat]
  omega

theorem sext7_fieldImm7_encodeI (op : BitVec 3) (a b : Reg) {imm : Int} (h : immFits imm = true) :
    sext7 (fieldImm7 (encodeI op a b imm)) = imm := by
  refine sext7_eq_of_emod h ?_
  rw [fieldImm7_toNat, encodeI_toNat]
  omega

theorem fieldImm13_encodeJ (op : BitVec 3) {t : Nat} (h : targetFits t = true) :
    (fieldImm13 (encodeJ op t)).toNat = t := by
  have := targetFits_iff.mp h
  rw [fieldImm13_toNat, encodeJ_toNat]
  omega

/-! ### Every word is the word of its own fields -/

theorem encodeR_fields {w : Word} (ho : fieldOp w = opRType) :
    encodeR (fieldA w) (fieldB w) (fieldC w) (fieldFunc w) = w := by
  have hop := congrArg BitVec.toNat ho
  rw [fieldOp_toNat, opRType_toNat] at hop
  apply BitVec.eq_of_toNat_eq
  rw [encodeR_toNat, fieldA_eq, fieldB_eq, fieldC_eq, fieldFunc_toNat]
  simp only [regField_val]
  omega

theorem encodeI_fields (w : Word) : encodeI (fieldOp w) (fieldA w) (fieldB w) (sext7 (fieldImm7 w)) = w := by
  have hw := w.isLt
  apply BitVec.eq_of_toNat_eq
  rw [encodeI_toNat, fieldOp_toNat, fieldA_eq, fieldB_eq, sext7_emod, Int.toNat_natCast, fieldImm7_toNat]
  simp only [regField_val]
  omega

theorem encodeJ_fields (w : Word) : encodeJ (fieldOp w) (fieldImm13 w).toNat = w := by
  apply BitVec.eq_of_toNat_eq
  rw [encodeJ_toNat, fieldOp_toNat, fieldImm13_toNat]
  omega

/-! ### The relation of a word, from its fields -/

section
variable {w : Word} {d : Decoded}

theorem Denotes.of_fieldsR {f : BitVec 4} (ho : fieldOp w = opRType) (hf : fieldFunc w = f)
    (h : Denotes (encodeR (fieldA w) (fieldB w) (fieldC w) f) d) : Denotes w d := by
  subst hf
  rwa [encodeR_fields ho] at h

theorem Denotes.of_fieldsI {op : BitVec 3} (ho : fieldOp w = op)
    (h : Denotes (encodeI op (fieldA w) (fieldB w) (sext7 (fieldImm7 w))) d) : Denotes w d := by
  subst ho
  rwa [encodeI_fields] at h

theorem Denotes.of_fieldsJ {op : BitVec 3} (ho : fieldOp w = op)
    (h : Denotes (encodeJ op (fieldImm13 w).toNat) d) : Denotes w d := by
  subst ho
  rwa [encodeJ_fields] at h

/-- An invalid word, named by itself. -/
theorem Denotes.of_unusedFunc (ho : fieldOp w = opRType) (hf : (fieldFunc w).toNat ∉ [0, 1, 2, 3, 4, 8]) :
    Denotes w (.invalid w) := by
  have h := Denotes.invalid (fieldA w) (fieldB w) (fieldC w) hf
  rwa [encodeR_fields ho] at h

end

/-! ### The decoder computes the relation -/

theorem unusedFunc_iff : ∀ f : BitVec 4, f.toNat ∉ [0, 1, 2, 3, 4, 8] ↔
    ¬f = funcAdd ∧ ¬f = funcSub ∧ ¬f = funcOr ∧ ¬f = funcAnd ∧ ¬f = funcSlt ∧ ¬f = funcJr := by decide

theorem eq_opSlti_of_ne : ∀ op : BitVec 3,
    ¬op = opRType ∧ ¬op = opAddi ∧ ¬op = opJ ∧ ¬op = opJal ∧ ¬op = opLw ∧ ¬op = opSw ∧ ¬op = opJeq → op = opSlti := by
  decide

theorem denotes_decodeRType {w : Word} (ho : fieldOp w = opRType) : Denotes w (decodeRType w) := by
  unfold decodeRType
  split_ifs with hadd hsub hor hand hslt hjr
  · exact .of_fieldsR ho hadd (.add _ _ _)
  · exact .of_fieldsR ho hsub (.sub _ _ _)
  · exact .of_fieldsR ho hor (.or _ _ _)
  · exact .of_fieldsR ho hand (.and _ _ _)
  · exact .of_fieldsR ho hslt (.slt _ _ _)
  · exact .of_fieldsR ho hjr (.jr _ _ _)
  · exact .of_unusedFunc ho ((unusedFunc_iff _).mpr ⟨hadd, hsub, hor, hand, hslt, hjr⟩)

theorem denotes_decode (w : Word) : Denotes w (decode w) := by
  have himm := immFits_sext7 (fieldImm7 w)
  have htarget := targetFits_fieldImm13 w
  unfold decode
  split_ifs with hr haddi hj hjal hlw hsw hjeq
  · exact denotes_decodeRType hr
  · exact .of_fieldsI haddi (.addi _ _ himm)
  · exact .of_fieldsJ hj (.j htarget)
  · exact .of_fieldsJ hjal (.jal htarget)
  · exact .of_fieldsI hlw (.lw _ _ himm)
  · exact .of_fieldsI hsw (.sw _ _ himm)
  · exact .of_fieldsI hjeq (.jeq _ _ himm)
  · exact .of_fieldsI (eq_opSlti_of_ne _ ⟨hr, haddi, hj, hjal, hlw, hsw, hjeq⟩) (.slti _ _ himm)

theorem decode_of_opRType {w : Word} (ho : fieldOp w = opRType) : decode w = decodeRType w := if_pos ho

theorem decodeRType_of_unusedFunc {w : Word} (hf : (fieldFunc w).toNat ∉ [0, 1, 2, 3, 4, 8]) :
    decodeRType w = .invalid w := by
  obtain ⟨hadd, hsub, hor, hand, hslt, hjr⟩ := (unusedFunc_iff _).mp hf
  simp only [decodeRType, hadd, hsub, hor, hand, hslt, hjr, if_false]

theorem Denotes.decode_eq {w : Word} {d : Decoded} (h : Denotes w d) : decode w = d := by
  cases h with
  | add a b c | sub a b c | or a b c | and a b c | slt a b c | jr a b c =>
    rw [decode_of_opRType (fieldOp_encodeR _ _ _ _), decodeRType, fieldFunc_encodeR, fieldA_encodeR, fieldB_encodeR,
      fieldC_encodeR]
    rfl
  | invalid a b c hf =>
    rw [decode_of_opRType (fieldOp_encodeR _ _ _ _), decodeRType_of_unusedFunc (by rwa [fieldFunc_encodeR])]
  | addi a b h | lw a b h | sw a b h | jeq a b h | slti a b h =>
    rw [decode, fieldOp_encodeI, fieldA_encodeI, fieldB_encodeI, sext7_fieldImm7_encodeI _ _ _ h]
    rfl
  | j h | jal h =>
    rw [decode, fieldOp_encodeJ, fieldImm13_encodeJ _ h]
    rfl

theorem decode_eq_iff {w : Word} {d : Decoded} : decode w = d ↔ Denotes w d :=
  ⟨fun h => h ▸ denotes_decode w, Denotes.decode_eq⟩

/-! ### The round trips (R89) -/

/-- The word of a well-formed instruction stands for it. -/
theorem denotes_encode {i : Instr} (h : i.wellFormed = true) : Denotes (encode i) (.valid i) := by
  cases i with
  | add a b c => exact .add a b c
  | sub a b c => exact .sub a b c
  | or a b c => exact .or a b c
  | and a b c => exact .and a b c
  | slt a b c => exact .slt a b c
  | jr a => exact .jr a 0 0
  | addi a b imm => exact .addi a b h
  | j t => exact .j h
  | jal t => exact .jal h
  | lw a b imm => exact .lw a b h
  | sw a b imm => exact .sw a b h
  | jeq a b imm => exact .jeq a b h
  | slti a b imm => exact .slti a b h

theorem Denotes.encode_eq {w : Word} {i : Instr} (h : Denotes w (.valid i)) (hjr : ∀ a, i ≠ .jr a) : encode i = w := by
  cases h with
  | jr a b c => exact absurd rfl (hjr a)
  | _ => rfl

/-- The mask 0xFC0F clears bits 9:4, which are the fields `rB` and `rC`. -/
theorem encodeR_and_mask (a b c : Reg) (f : BitVec 4) : encodeR a b c f &&& 0xFC0F = encodeR a 0 0 f := by
  change (opRType ++ regBits a ++ regBits b ++ regBits c ++ f : BitVec (3 + 3 + 3 + 3 + 4)) &&&
    (BitVec.allOnes 3 ++ BitVec.allOnes 3 ++ 0#3 ++ 0#3 ++ BitVec.allOnes 4) = opRType ++ regBits a ++ 0#3 ++ 0#3 ++ f
  simp only [BitVec.and_append, BitVec.and_allOnes, BitVec.and_zero]

theorem Denotes.encode_jr {w : Word} {a : Reg} (h : Denotes w (.valid (.jr a))) : encode (.jr a) = w &&& 0xFC0F := by
  cases h with
  | jr a b c => exact (encodeR_and_mask a b c funcJr).symm

/-- An invalid instruction names its word. -/
theorem Denotes.eq_of_invalid {w v : Word} (h : Denotes w (.invalid v)) : v = w := by
  cases h with
  | invalid => rfl

theorem decode_valid_or_invalid (w : Word) : (∃ i, decode w = .valid i) ∨ decode w = .invalid w := by
  cases hd : decode w with
  | valid i => exact .inl ⟨i, rfl⟩
  | invalid v => exact .inr (congrArg Decoded.invalid (decode_eq_iff.mp hd).eq_of_invalid)

/-- Settles O3: the decoder computes `Denotes`, whose constructors are the encoder's own words, but for `jr`. -/
theorem decodeEncodeRoundTrip : Obligations.DecodeEncodeRoundTrip :=
  ⟨fun _ h => (denotes_encode h).decode_eq, fun _ _ h hjr => (decode_eq_iff.mp h).encode_eq hjr,
    fun _ _ h => (decode_eq_iff.mp h).encode_jr, decode_valid_or_invalid⟩

/-! ### The other statements of the codec -/

/-- Settles O2: the fields in the word's own arithmetic are those of the decoder. -/
theorem decodeReadsEveryField : Obligations.DecodeReadsEveryField := by
  intro w
  have himm := immFits_sext7 (fieldImm7 w)
  have htarget := targetFits_fieldImm13 w
  have hop {op : BitVec 3} (h : (fieldOp w).toNat = op.toNat) : fieldOp w = op := BitVec.eq_of_toNat_eq h
  have hfunc {f : BitVec 4} (h : (fieldFunc w).toNat = f.toNat) : fieldFunc w = f := BitVec.eq_of_toNat_eq h
  rw [← fieldOp_toNat, ← fieldFunc_toNat, ← fieldImm13_toNat, ← fieldA_eq, ← fieldB_eq, ← fieldC_eq,
    ← sext7_fieldImm7]
  simp only [decode_eq_iff]
  exact ⟨fun ⟨ho, hf⟩ => .of_fieldsR (f := funcAdd) (hop ho) (hfunc hf) (.add _ _ _),
    fun ⟨ho, hf⟩ => .of_fieldsR (f := funcSub) (hop ho) (hfunc hf) (.sub _ _ _),
    fun ⟨ho, hf⟩ => .of_fieldsR (f := funcOr) (hop ho) (hfunc hf) (.or _ _ _),
    fun ⟨ho, hf⟩ => .of_fieldsR (f := funcAnd) (hop ho) (hfunc hf) (.and _ _ _),
    fun ⟨ho, hf⟩ => .of_fieldsR (f := funcSlt) (hop ho) (hfunc hf) (.slt _ _ _),
    fun ⟨ho, hf⟩ => .of_fieldsR (f := funcJr) (hop ho) (hfunc hf) (.jr _ _ _),
    fun ⟨ho, hf⟩ => .of_unusedFunc (hop ho) hf,
    fun ho => .of_fieldsI (op := opAddi) (hop ho) (.addi _ _ himm),
    fun ho => .of_fieldsJ (op := opJ) (hop ho) (.j htarget),
    fun ho => .of_fieldsJ (op := opJal) (hop ho) (.jal htarget),
    fun ho => .of_fieldsI (op := opLw) (hop ho) (.lw _ _ himm),
    fun ho => .of_fieldsI (op := opSw) (hop ho) (.sw _ _ himm),
    fun ho => .of_fieldsI (op := opJeq) (hop ho) (.jeq _ _ himm),
    fun ho => .of_fieldsI (op := opSlti) (hop ho) (.slti _ _ himm)⟩

/-- R84: a word stands for an invalid instruction exactly when its opcode is 0 and its function code unused. -/
theorem denotes_invalid_iff {w : Word} : (∃ v, Denotes w (.invalid v)) ↔
    w.toNat / 8192 = 0 ∧ w.toNat % 16 ∉ [0, 1, 2, 3, 4, 8] := by
  rw [← fieldOp_toNat, ← fieldFunc_toNat]
  constructor
  · rintro ⟨v, h⟩
    cases h with
    | invalid a b c hf => rw [fieldOp_encodeR, fieldFunc_encodeR]; exact ⟨rfl, hf⟩
  · exact fun ⟨ho, hf⟩ => ⟨w, .of_unusedFunc (BitVec.eq_of_toNat_eq ho) hf⟩

/-- A predicate with period `m` holds as often in each of the blocks of `m` numbers. -/
theorem count_mul_of_periodic {p : Nat → Prop} [DecidablePred p] {m : Nat} (hp : ∀ n, p (m + n) ↔ p n) (k : Nat) :
    Nat.count p (m * k) = k * Nat.count p m := by
  induction k with
  | zero => rw [Nat.mul_zero, Nat.zero_mul, Nat.count_zero]
  | succ k ih =>
    rw [Nat.mul_succ, Nat.add_comm, Nat.count_add]
    simp only [hp, ih, Nat.succ_mul, Nat.add_comm]

/-- Ten of the sixteen function codes are unused (R82), in each of the 512 blocks of 16 words that opcode 0 has. -/
theorem count_unusedFunc : Nat.count (fun n => n % 16 ∉ [0, 1, 2, 3, 4, 8]) (16 * 512) = 5120 :=
  calc
    _ = 512 * Nat.count (fun n => n % 16 ∉ [0, 1, 2, 3, 4, 8]) 16 :=
      count_mul_of_periodic (fun n => by rw [Nat.add_mod_left]) 512
    _ = 5120 := by decide

theorem count_invalid_words :
    ((List.range 65536).filter fun n => decide (n / 8192 = 0) && decide (n % 16 ∉ [0, 1, 2, 3, 4, 8])).length = 5120 := by
  have hlow : ∀ n ∈ List.range (16 * 512), (decide (n / 8192 = 0) && decide (n % 16 ∉ [0, 1, 2, 3, 4, 8])) =
      decide (n % 16 ∉ [0, 1, 2, 3, 4, 8]) := by
    intro n hn
    have hop : n / 8192 = 0 := Nat.div_eq_of_lt (List.mem_range.mp hn)
    rw [decide_eq_true hop, Bool.true_and]
  have hhigh : ∀ n ∈ (List.range 57344).map (16 * 512 + ·),
      ¬(decide (n / 8192 = 0) && decide (n % 16 ∉ [0, 1, 2, 3, 4, 8])) = true := by
    intro n hn hinvalid
    obtain ⟨m, -, rfl⟩ := List.mem_map.mp hn
    have hop := of_decide_eq_true (Bool.and_eq_true_iff.mp hinvalid).1
    omega
  rw [show 65536 = 16 * 512 + 57344 from rfl, List.range_add, List.filter_append, List.filter_congr hlow,
    List.filter_eq_nil_iff.mpr hhigh, List.append_nil, ← List.countP_eq_length_filter]
  exact count_unusedFunc

/-- Settles O4: of the constructors of `Denotes` only one is invalid, and the words it covers are counted by blocks. -/
theorem invalidWordsAreExactly : Obligations.InvalidWordsAreExactly :=
  ⟨fun _ => by simp only [decode_eq_iff, denotes_invalid_iff], count_invalid_words⟩

theorem Denotes.wellFormed {w : Word} {i : Instr} (h : Denotes w (.valid i)) : i.wellFormed = true := by
  cases h with
  | add | sub | or | and | slt | jr => rfl
  | addi _ _ h | j h | jal h | lw _ _ h | sw _ _ h | jeq _ _ h | slti _ _ h => exact h

/-- Settles O5: `Denotes` holds of well-formed instructions only. -/
theorem decodedInstructionIsWellFormed : Obligations.DecodedInstructionIsWellFormed :=
  fun _ _ h => (decode_eq_iff.mp h).wellFormed

/-- Settles O1: closed facts, each by running the decoder. -/
theorem decodeOfSpecWords : Obligations.DecodeOfSpecWords := by
  unfold Obligations.DecodeOfSpecWords
  decide

/-- Settles O6: by the two halves of the range of a 7-bit number. -/
theorem signExtensionOfImmediates : Obligations.SignExtensionOfImmediates := by
  intro v
  refine ⟨fun h => ⟨sext7_of_le h, ?_⟩, fun h => ⟨sext7_of_ge h, ?_⟩, immFits_iff.mp (immFits_sext7 v)⟩
  · rw [sext7_of_le h, immWord, BitVec.toNat_ofInt]; omega
  · rw [sext7_of_ge h, immWord, BitVec.toNat_ofInt]; omega

end Sys2Proof.Machine
end

section
/-! ## The R-type arithmetic and logic (40_alu_rtype.md)

`completesWriting_of_exec` is the completion all five share (R100); each statement adds the value of its own result. -/

namespace Sys2Proof.Machine

/-- The rule of R100: an instruction whose next state is one register write and `pc` plus 1 completes. -/
theorem completesWriting_of_exec {i : Instr} {s : State} {d : Reg} {v : Word}
    (h : exec i s = .next ((s.writeReg d v).incrPc 1)) : completesWriting i s d v := by
  obtain ⟨hwrote, houtside, -, -⟩ := registerWriteStoresOrDiscards s d v
  refine ⟨_, h, hwrote, ?_, houtside⟩
  have hpc := toNat_ofInt_addr ((s.pc.toNat : Int) + 1)
  rw [State.advanced, State.incrPc_pc, State.writeReg_pc]
  omega

/-! ### The words (R72) -/

/-- The word written as a number is the encoder's. -/
theorem rWord_eq_encodeR (a b c : Reg) (f : BitVec 4) : rWord a b c f.toNat = encodeR a b c f := by
  rw [rWord, ← encodeR_toNat, BitVec.ofNat_toNat, BitVec.setWidth_eq]

theorem decode_rWord {a b c : Reg} {d : Decoded} (f : BitVec 4) (h : Denotes (encodeR a b c f) d) :
    decode (rWord a b c f.toNat) = d :=
  (congrArg decode (rWord_eq_encodeR a b c f)).trans h.decode_eq

/-! ### The results (R101 to R105) -/

theorem ofNat_word_mod (n : Nat) : BitVec.ofNat 16 (n % 65536) = BitVec.ofNat 16 n :=
  BitVec.eq_of_toNat_eq (by rw [BitVec.toNat_ofNat, BitVec.toNat_ofNat, Nat.mod_mod])

/-- The masked difference, without a negative number. -/
theorem ofInt_word_sub (x y : Word) :
    BitVec.ofInt 16 ((x.toNat : Int) - (y.toNat : Int)) = BitVec.ofNat 16 ((65536 + x.toNat - y.toNat) % 65536) := by
  have hy := y.isLt
  apply BitVec.eq_of_toNat_eq
  rw [BitVec.toNat_ofInt, BitVec.toNat_ofNat]
  omega

theorem boolWord_lessThan_unsigned (x y : Word) :
    boolWord (lessThan false x y) = if x.toNat < y.toNat then 1 else 0 := by
  simp only [boolWord, lessThan, Bool.false_eq_true, if_false, decide_eq_true_eq]

theorem boolWord_lessThan_signed (x y : Word) :
    boolWord (lessThan true x y) = if x.toInt < y.toInt then 1 else 0 := by
  simp only [boolWord, lessThan, if_true, decide_eq_true_eq]

/-! ### The instructions -/

/-- Settles O13: the reduction modulo 65536 is the truncation to a word. -/
theorem addResult : Obligations.AddResult := by
  intro a b c s
  rw [ofNat_word_mod]
  exact ⟨decode_rWord funcAdd (.add a b c), completesWriting_of_exec (exec_add a b c s)⟩

/-- Settles O14: by the masked difference. -/
theorem subResult : Obligations.SubResult := by
  intro a b c s
  rw [← ofInt_word_sub]
  exact ⟨decode_rWord funcSub (.sub a b c), completesWriting_of_exec (exec_sub a b c s)⟩

/-- Settles O15: the values are the words' or and and, whose bits are those of the operands. -/
theorem orAndResults : Obligations.OrAndResults := fun a b c s =>
  ⟨decode_rWord funcOr (.or a b c), decode_rWord funcAnd (.and a b c),
    ⟨_, fun _ => BitVec.getLsbD_or, completesWriting_of_exec (exec_or a b c s)⟩,
    ⟨_, fun _ => BitVec.getLsbD_and, completesWriting_of_exec (exec_and a b c s)⟩⟩

/-- Settles O16: by the two settings of `sltSigned`. -/
theorem sltResult : Obligations.SltResult := by
  intro a b c s
  have hslt := exec_slt a b c s
  refine ⟨decode_rWord funcSlt (.slt a b c), fun hunsigned => ?_, fun hsigned => ?_⟩
  · rw [hunsigned, boolWord_lessThan_unsigned] at hslt
    exact completesWriting_of_exec hslt
  · rw [hsigned, boolWord_lessThan_signed] at hslt
    exact completesWriting_of_exec hslt

end Sys2Proof.Machine
end

section
/-! ## The immediate arithmetic (41_alu_imm.md)

Both instructions complete as R110 says, which is the completion the R-type ones have; each statement adds the value of
its own result. -/

namespace Sys2Proof.Machine

/-! ### The words (R73) -/

/-- The word written as a number is the encoder's. -/
theorem iWord_eq_encodeI (op : BitVec 3) (a b : Reg) (imm : Int) : iWord op.toNat a b imm = encodeI op a b imm := by
  rw [iWord, ← encodeI_toNat, BitVec.ofNat_toNat, BitVec.setWidth_eq]

theorem decode_iWord {a b : Reg} {imm : Int} {d : Decoded} (op : BitVec 3) (h : Denotes (encodeI op a b imm) d) :
    decode (iWord op.toNat a b imm) = d :=
  (congrArg decode (iWord_eq_encodeI op a b imm)).trans h.decode_eq

/-! ### The results (R111, R112) -/

/-- Masking an integer to a word is reducing it modulo 65536. -/
theorem ofInt_word_eq_ofNat_emod (n : Int) : BitVec.ofInt 16 n = BitVec.ofNat 16 (n % 65536).toNat := by
  apply BitVec.eq_of_toNat_eq
  rw [BitVec.toNat_ofInt, BitVec.toNat_ofNat]
  omega

/-- The unsigned value of `sext7_16` (R78). -/
theorem immWord_toNat (imm : Int) : ((immWord imm).toNat : Int) = imm % 65536 := by
  rw [immWord, BitVec.toNat_ofInt]
  omega

/-- The signed value of `sext7_16` is the immediate itself (R78). -/
theorem immWord_toInt {imm : Int} (h : immFits imm = true) : (immWord imm).toInt = imm := by
  obtain ⟨hlow, hhigh⟩ := immFits_iff.mp h
  exact BitVec.toInt_ofInt_eq_self (by decide) (by omega) (by omega)

theorem boolWord_lessThan_immWord_unsigned (x : Word) (imm : Int) :
    boolWord (lessThan false x (immWord imm)) = if (x.toNat : Int) < imm % 65536 then 1 else 0 := by
  simp only [boolWord_lessThan_unsigned, ← immWord_toNat, Int.ofNat_lt]

theorem boolWord_lessThan_immWord_signed (x : Word) {imm : Int} (h : immFits imm = true) :
    boolWord (lessThan true x (immWord imm)) = if x.toInt < imm then 1 else 0 := by
  rw [boolWord_lessThan_signed, immWord_toInt h]

/-! ### The instructions -/

/-- Settles O17: the reduction modulo 65536 is the masking of the sum. -/
theorem addiResult : Obligations.AddiResult := by
  intro a b imm s himm
  rw [← ofInt_word_eq_ofNat_emod]
  exact ⟨decode_iWord opAddi (.addi a b himm), completesWriting_of_exec (exec_addi a b imm s)⟩

/-- Settles O18: by the two settings of `sltSigned`, with the value each gives the immediate's 16-bit pattern. -/
theorem sltiResult : Obligations.SltiResult := by
  intro a b imm s himm
  have hslti := exec_slti a b imm s
  refine ⟨decode_iWord opSlti (.slti a b himm), fun hunsigned => ?_, fun hsigned => ?_⟩
  · rw [hunsigned, boolWord_lessThan_immWord_unsigned] at hslti
    exact completesWriting_of_exec hslti
  · rw [hsigned, boolWord_lessThan_immWord_signed _ himm] at hslti
    exact completesWriting_of_exec hslti

end Sys2Proof.Machine
end

section
/-! ## Control transfer (42_control.md)

`completesJumping_of_exec` is the completion of the instructions that only set `pc`; each statement adds its own target.
`jal` also writes its link, and the halt form of `j` leaves `pc` alone. -/

namespace Sys2Proof.Machine

/-- An instruction whose next state is `pc <- t` completes (00_scope.md R10). -/
theorem completesJumping_of_exec {i : Instr} {s : State} {t : Int} {target : Nat} (h : exec i s = .next (s.setPc t))
    (htarget : t % 8192 = target) : completesJumping i s target :=
  ⟨_, h, Int.ofNat_inj.mp ((toNat_ofInt_addr t).trans htarget), fun _ => rfl, rfl, rfl, rfl, rfl, rfl, rfl, rfl⟩

/-! ### The words (R74) -/

/-- The word written as a number is the encoder's, if the target fits its field. -/
theorem jWord_eq_encodeJ (op : BitVec 3) {t : Nat} (h : t < 8192) : jWord op.toNat t = encodeJ op t := by
  have hword := encodeJ_toNat op t
  rw [Nat.mod_eq_of_lt h] at hword
  rw [jWord, ← hword, BitVec.ofNat_toNat, BitVec.setWidth_eq]

theorem decode_jWord {t : Nat} {d : Decoded} (op : BitVec 3) (ht : t < 8192) (h : Denotes (encodeJ op t) d) :
    decode (jWord op.toNat t) = d :=
  (congrArg decode (jWord_eq_encodeJ op ht)).trans h.decode_eq

/-- The halt word `0x4000 | p` is the word of `j p` (30_encoding.md R87). -/
theorem haltWord_eq_encodeJ (p : Addr) : 0x4000 ||| p.zeroExtend 16 = encodeJ opJ p.toNat := by
  rw [encodeJ, BitVec.ofNat_toNat, BitVec.setWidth_eq, BitVec.append_def]
  rfl

/-! ### The next state of each case, and the link (R121 to R124) -/

theorem exec_jeq_of_eq {a b : Reg} {s : State} (h : s.readReg a = s.readReg b) (imm : Int) :
    exec (.jeq a b imm) s = .next (s.incrPc (1 + imm)) := by
  rw [exec_jeq, condEqual, decide_eq_true h, if_pos rfl]

theorem exec_jeq_of_ne {a b : Reg} {s : State} (h : s.readReg a ≠ s.readReg b) (imm : Int) :
    exec (.jeq a b imm) s = .next (s.incrPc 1) := by
  rw [exec_jeq, condEqual, decide_eq_false h, if_neg Bool.false_ne_true]

theorem exec_j_of_ne {t : Nat} {s : State} (h : t ≠ s.pc.toNat) : exec (.j t) s = .next (s.setPc t) := by
  rw [exec_j, if_neg h]

theorem exec_j_self (s : State) : exec (.j s.pc.toNat) s = .next s.halt := by
  rw [exec_j, if_pos rfl]

/-- The link is not reduced modulo 8192: 13 bits and a carry fit a word (R124, D5). -/
theorem linkValue_toNat (pc : Addr) : (linkValue pc).toNat = pc.toNat + 1 := by
  have hpc := pc.isLt
  rw [linkValue, BitVec.toNat_ofNat]
  omega

/-! ### The instructions -/

/-- Settles O19: bits 9:4 are the two fields a `jr` word leaves free. -/
theorem jrResult : Obligations.JrResult := fun a b c s =>
  ⟨decode_rWord funcJr (.jr a b c), completesJumping_of_exec (exec_jr a s) (Int.natCast_mod _ _).symm⟩

/-- Settles O20: by the two outcomes of the comparison. -/
theorem jeqResult : Obligations.JeqResult := by
  intro a b imm s himm
  refine ⟨decode_iWord opJeq (.jeq a b himm), fun heq => ?_, fun hne => ?_⟩
  · exact completesJumping_of_exec (exec_jeq_of_eq heq imm) (by omega)
  · exact completesJumping_of_exec (exec_jeq_of_ne hne imm) (by omega)

/-- Settles O21: a target that is not the `pc` is set, and needs no reduction. -/
theorem jumpResult : Obligations.JumpResult := fun _ _ ht =>
  ⟨decode_jWord opJ ht (.j (targetFits_iff.mpr ht)),
    fun hne => completesJumping_of_exec (exec_j_of_ne hne) (by omega)⟩

/-- Settles O22: the halt word is the encoder's, and its `j` takes the halt form. -/
theorem haltResult : Obligations.HaltResult := by
  intro s
  rw [haltWord_eq_encodeJ]
  exact ⟨(Denotes.j (targetFits_iff.mpr s.pc.isLt)).decode_eq, exec_j_self s⟩

/-- Settles O23: the next state is the write of the link, whose value is exact, and then the jump. -/
theorem jalResult : Obligations.JalResult := by
  intro target s ht
  obtain ⟨⟨hlink, hothers, -⟩, houtside, -, -⟩ := registerWriteStoresOrDiscards s linkReg (linkValue s.pc)
  have hpc := toNat_ofInt_addr target
  refine ⟨decode_jWord opJal ht (.jal (targetFits_iff.mpr ht)), _, exec_jal target s, ?_, hothers, ?_, houtside⟩
  · exact (congrArg BitVec.toNat (hlink (by decide))).trans (linkValue_toNat s.pc)
  · rw [State.setPc_pc]
    omega

end Sys2Proof.Machine
end

section
/-! ## Loads and stores (43_load_store.md)

What the two instructions share with the others is read off `Effect`; what the hierarchy does is read off
`State.cacheLoad_cases` and the laws of `State.cacheStore`. -/

namespace Sys2Proof.Machine

/-! ### Completion and frames (R131, R132, 20_memory.md R42) -/

/-- An instruction whose row of the table of 10_state.md R25 is `pc + 1`. -/
theorem exec_advances {i : Instr} {s t : State} (h : exec i s = .next t)
    (hpc : nextPc i s = (s.pc.toNat + 1) % 8192) : s.advanced t :=
  Int.ofNat_inj.mp ((exec_effect h).pc.trans hpc)

/-- A register write in a state that has the registers of `s`. -/
theorem State.wrote_writeReg {s t : State} (hregs : t.regs = s.regs) (d : Reg) (v : Word) :
    s.wrote (t.writeReg d v) d v := by
  obtain ⟨⟨hd, hothers, hzero⟩, -⟩ := registerWriteStoresOrDiscards t d v
  exact ⟨hd, fun r hr => (hothers r hr).trans (State.readReg_congr hregs r), hzero⟩

theorem State.readMem_cacheStore_other (s : State) {a x : Addr} (h : x ≠ a) (v : Word) :
    (s.cacheStore a v).readMem x = s.readMem x := by
  obtain ⟨-, -, hmem, -⟩ := s.cacheStore_frame a v
  exact (State.readMem_congr (s := s.writeMem a v) hmem x).trans (s.readMem_writeMem_other h v)

/-- Settles O25: a load writes its destination and a store writes memory; the rest is the frame of the hierarchy. -/
theorem loadAndStoreAlwaysComplete : Obligations.LoadAndStoreAlwaysComplete := by
  refine fun a b imm s => ⟨?_, ?_⟩
  · have hlw := exec_lw a b imm s
    obtain ⟨-, hregs, hmem, hrun, hopts, -⟩ := s.cacheLoad_frame (effectiveAddr (s.readReg a) imm)
    exact ⟨_, _, hlw, State.wrote_writeReg hregs b _, exec_advances hlw rfl, hmem, hrun, hopts, s.cacheLoad_config _⟩
  · have hsw := exec_sw a b imm s
    obtain ⟨-, hregs, -, hrun, hopts, -⟩ := s.cacheStore_frame (effectiveAddr (s.readReg a) imm) (s.readReg b)
    exact ⟨_, hsw, State.readReg_congr hregs, exec_advances hsw rfl, s.readMem_cacheStore_same _ _,
      fun x hx => s.readMem_cacheStore_other hx _, hrun, hopts, s.cacheStore_config _ _⟩

/-! ### The effective address and the first event (R130, 45_cache_hierarchy.md R181) -/

/-- The sum may be wrapped to a word before it is reduced to an address, because 8192 divides 65536. -/
theorem effectiveAddr_eq_setWidth (base : Word) (imm : Int) :
    effectiveAddr base imm = (base + BitVec.ofInt 16 imm).setWidth 13 := by
  apply BitVec.eq_of_toNat_eq
  rw [effectiveAddr, BitVec.toNat_ofInt, BitVec.toNat_setWidth, BitVec.toNat_add, BitVec.toNat_ofInt]
  omega

/-- Every load appends events, and the first is L1's hit or miss. -/
theorem State.cacheLoad_trace (s : State) (a : Addr) : ∃ st es,
    (s.cacheLoad a).2.trace = s.trace ++ Event.cache .L1 st s.pc a (rowOf s.l1.params a) :: es := by
  rcases s.cacheLoad_cases a with ⟨w, -, h⟩ | ⟨-, -, h⟩ | ⟨w, l, -, h2, -, h⟩ | ⟨l, -, h2, -, h⟩ <;> rw [h]
  · exact ⟨.hit, [], rfl⟩
  · exact ⟨.miss, [], rfl⟩
  · exact ⟨.miss, [s.cacheEvent .L2 .hit a],
      (State.touchLevel_L2_trace (s := (s.emit _).emit _) h2 a w).trans (List.append_assoc _ _ _)⟩
  · exact ⟨.miss, [s.cacheEvent .L2 .miss a],
      (State.installLevel_L2_trace (s := (s.emit _).emit _) h2 a).trans (List.append_assoc _ _ _)⟩

/-- The first event appended stands where the trace ended. -/
theorem getElem?_trace_of_append {s t : State} {e : Event} {es : List Event} (h : t.trace = s.trace ++ e :: es) :
    t.trace[s.trace.length]? = some e := by
  rw [h, List.getElem?_append_right (le_refl _), Nat.sub_self, List.getElem?_cons_zero]

/-- Settles O24: the address is the sum masked to 13 bits, and the first event of either access is L1's. -/
theorem effectiveAddressLaw : Obligations.EffectiveAddressLaw := by
  refine ⟨fun base imm => ⟨toNat_ofInt_addr _, effectiveAddr_eq_setWidth base imm⟩, fun a b imm s => ⟨?_, ?_⟩⟩
  · obtain ⟨st, es, htrace⟩ := s.cacheLoad_trace (effectiveAddr (s.readReg a) imm)
    exact ⟨_, st, exec_lw a b imm s, getElem?_trace_of_append htrace⟩
  · exact ⟨_, exec_sw a b imm s, getElem?_trace_of_append (s.cacheStore_trace _ _)⟩

/-! ### The other instructions (R133, 46_interfaces_trace.md R200) -/

/-- Only the load and the store cases of an effect reach the hierarchy. -/
theorem Effect.keeps_caches {i : Instr} {s t : State} (h : Effect i s t) (hi : usesCaches i = false) :
    t.l1 = s.l1 ∧ t.l2 = s.l2 ∧ t.mem = s.mem ∧ t.trace = s.trace ∧ t.opts = s.opts ∧ t.draws = s.draws := by
  cases h with
  | write hd v => exact ⟨rfl, rfl, rfl, rfl, rfl, rfl⟩
  | jump hd => exact ⟨rfl, rfl, rfl, rfl, rfl, rfl⟩
  | halt => exact ⟨rfl, rfl, rfl, rfl, rfl, rfl⟩
  | load a b imm => cases hi
  | store a b imm => cases hi

/-- Settles O54: every instruction completes, with an effect that is not a load's or a store's. -/
theorem onlyLoadsAndStoresDriveTheCaches : Obligations.OnlyLoadsAndStoresDriveTheCaches := by
  intro i s hi
  obtain ⟨t, ht, -⟩ := exec_keeps_constants i s
  exact ⟨t, ht, (exec_effect ht).keeps_caches hi⟩

end Sys2Proof.Machine
end

section
/-! ## Addresses, rows and ways of one level (44_cache_level.md R143 to R151) -/

namespace Sys2Proof.Machine

/-! ### Address decomposition (R143 to R145) -/

/-- Tag and row are quotient and remainder of the block number, so they determine it and are determined by it. -/
theorem tagOf_rowOf_eq_iff {p : LevelParams} {a b : Addr} :
    tagOf p a = tagOf p b ∧ rowOf p a = rowOf p b ↔ blockNumber p a = blockNumber p b := by
  constructor
  · rintro ⟨htag, hrow⟩
    rw [← blockNumber_eq, ← blockNumber_eq, htag, hrow]
  · exact fun h => ⟨congrArg (· / rowCount p) h, congrArg (· % rowCount p) h⟩

/-- The block size divides the memory size, so a block that begins in memory ends in it (R141, R145). -/
theorem blockBase_add_blockSize_le {p : LevelParams} (h : legalLevel p = true) (a : Addr) :
    blockBase p a + p.blockSize ≤ 8192 := by
  obtain ⟨-, hB, -, -, hdvd⟩ := legalLevel_iff.mp h
  obtain ⟨c, hc⟩ := Nat.dvd_of_mod_eq_zero hdvd
  have hblock : blockNumber p a < c := Nat.div_lt_of_lt_mul (hc ▸ a.isLt)
  calc
    blockBase p a + p.blockSize = p.blockSize * (blockNumber p a + 1) := by rw [Nat.mul_succ, Nat.mul_comm]; rfl
    _ ≤ p.blockSize * c := Nat.mul_le_mul_left _ hblock
    _ = 8192 := hc.symm

/-- Settles O35: the address is its block number and offset, and the block number its tag and row. -/
theorem addressDecomposition : Obligations.AddressDecomposition := by
  intro p a b hp
  have haddr : a.toNat = (tagOf p a * rowCount p + rowOf p a) * p.blockSize + offsetOf p a := by
    rw [blockNumber_eq]
    exact (blockBase_add_offset p a).symm
  exact ⟨rfl, rfl, rfl, rfl, rowOf_lt hp a, offsetOf_lt hp a, haddr, tagOf_rowOf_eq_iff,
    blockBase_add_blockSize_le hp a⟩

/-- Settles O36: division by a power of two is a shift, and the remainder the bits shifted out. -/
theorem decompositionIsBitSlicing : Obligations.DecompositionIsBitSlicing := by
  refine fun p a _ => ⟨tagOf_le_maxTag p a, fun j k hB hR => ?_⟩
  have htag : tagOf p a = a.toNat >>> (j + k) := by
    rw [tagOf, blockNumber, hB, hR, Nat.div_div_eq_div_mul, ← Nat.pow_add, Nat.shiftRight_eq_div_pow]
  refine ⟨?_, ?_, htag, fun hjk => ?_⟩
  · rw [offsetOf, hB, BitVec.extractLsb'_toNat, Nat.shiftRight_zero]
  · rw [rowOf, blockNumber, hB, hR, BitVec.extractLsb'_toNat, Nat.shiftRight_eq_div_pow]
  · rw [htag, Nat.shiftRight_eq_div_pow]
    exact Nat.div_eq_of_lt (a.isLt.trans_le (Nat.pow_le_pow_right (by decide) hjk))

/-! ### Lookup (R146, R147) -/

theorem CacheLevel.lookup_of_rowAt {l : CacheLevel} {a : Addr} {r : Row} (hr : l.rowAt a = some r) (pick : WayPick)
    (free : Nat) : l.lookup pick free a = pickWay pick free (r.matching (tagOf l.params a)) := by
  simp only [CacheLevel.lookup, hr]

/-- A row has no matching way exactly when each of its valid ways has another tag. -/
theorem Row.matching_eq_nil_iff {r : Row} {tag : Nat} : r.matching tag = [] ↔
    ∀ (w : Nat) (y : Way), r.ways[w]? = some y → y.valid = true → y.tag ≠ tag := by
  simp only [List.eq_nil_iff_forall_not_mem, Row.mem_matching, Row.matchesAt_iff, not_exists, not_and]

/-- Settles O37: a lookup picks among the matching ways of the row, and a query of a configured level keeps the state. -/
theorem lookupFindsAMatchingWay : Obligations.LookupFindsAMatchingWay := by
  refine ⟨fun l pick free a r hr => ?_, fun s n l a hl => State.queryLevel_configured hl _ _⟩
  rw [CacheLevel.lookup_of_rowAt hr]
  exact ⟨fun w hw => Row.matchesAt_iff.mp (Row.mem_matching.mp (pickWay_mem hw)),
    pickWay_eq_none.trans Row.matching_eq_nil_iff⟩

/-- The ascending scan picks the lowest matching way (R147, D6). -/
theorem Row.pickWay_lowest_matching {r : Row} {free tag w : Nat} : pickWay .lowest free (r.matching tag) = some w ↔
    r.matchesAt tag w = true ∧ ∀ v, v < w → r.matchesAt tag v = false :=
  head?_filter_range.trans (and_iff_right_of_imp fun ⟨hmatch, _⟩ => Row.validAt_lt (Row.validAt_of_matchesAt hmatch))

/-! ### Choosing the way to install into (R150) -/

/-- The lowest invalid way (R150, D7). -/
theorem Row.pickWay_lowest_free {r : Row} {free w : Nat} : pickWay .lowest free r.free = some w ↔
    w < r.ways.length ∧ r.validAt w = false ∧ ∀ v, v < w → r.validAt v = true := by
  have hhead := head?_filter_range (p := fun v => !r.validAt v) (n := r.ways.length) (w := w)
  simp only [Bool.not_eq_true', Bool.not_eq_false'] at hhead
  exact hhead

/-- An invalid way that is picked is the one chosen. -/
theorem Row.choose_of_pickWay {r : Row} {pick : WayPick} {free w : Nat} (h : pickWay pick free r.free = some w) :
    r.choose pick free = some w := by
  simp only [Row.choose, h]

theorem Row.validAt_of_free_eq_nil {r : Row} (h : r.free = []) {v : Nat} (hv : v < r.ways.length) :
    r.validAt v = true := by
  refine Bool.of_not_eq_false fun hinvalid => ?_
  have hmem := Row.mem_free.mpr ⟨hv, hinvalid⟩
  rw [h] at hmem
  cases hmem

/-- Settles O39: both picks are the head of an ascending list. -/
theorem defaultsTakeTheLowestWay : Obligations.DefaultsTakeTheLowestWay := by
  refine ⟨fun l free w a r hr => ?_, fun r free w hw hinvalid hbelow => ?_⟩
  · rw [CacheLevel.lookup_of_rowAt hr]
    exact Row.pickWay_lowest_matching
  · exact Row.choose_of_pickWay (Row.pickWay_lowest_free.mpr ⟨hw, hinvalid, hbelow⟩)

/-! ### Touch (R149) -/

theorem Row.getLast?_recency_touch (r : Row) (w : Nat) : (r.touch w).recency.getLast? = some w :=
  List.getLast?_concat

theorem Row.count_recency_touch (r : Row) (w : Nat) : (r.touch w).recency.count w = 1 := by
  have habsent : w ∉ r.recency.filter fun v => v ≠ w := by simp
  rw [Row.touch, List.count_append, List.count_eq_zero_of_not_mem habsent, List.count_singleton_self]

/-- The other ways keep their order. -/
theorem Row.filter_recency_touch (r : Row) (w : Nat) :
    ((r.touch w).recency.filter fun v => v ≠ w) = r.recency.filter fun v => v ≠ w := by
  simp [Row.touch]

theorem CacheLevel.getElem?_rows_touch (l : CacheLevel) (a : Addr) (w k : Nat) :
    (l.touch a w).rows[k]? = (l.rows[k]?).map fun r => if k = rowOf l.params a then r.touch w else r := by
  simp only [CacheLevel.touch, List.getElem?_modify, eq_comm (a := k)]
  rfl

/-- Settles O40: the recency list after a touch, and the touched row among the others. -/
theorem touchMovesToTheBack : Obligations.TouchMovesToTheBack :=
  ⟨fun r w => ⟨rfl, r.getLast?_recency_touch w, r.count_recency_touch w, r.filter_recency_touch w⟩,
    fun l a w k => ⟨rfl, l.getElem?_rows_touch a w k⟩⟩

/-! ### Install and read (R145, R151, R155) -/

/-- An install in a well-formed level puts the block into the way the row chooses. -/
theorem CacheLevel.install_eq_put {l : CacheLevel} (h : l.wf = true) (pick : WayPick) (free : Nat) (m : Memory)
    (a : Addr) : ∃ r w, l.rowAt a = some r ∧ r.ways.length = l.params.assoc ∧ w < l.params.assoc
      ∧ r.choose pick free = some w
      ∧ (l.install pick free m a).rows = l.rows.set (rowOf l.params a)
        (r.put w (tagOf l.params a) (m.readBlock (blockBase l.params a) l.params.blockSize)) := by
  obtain ⟨hlegal, -, -⟩ := CacheLevel.wf_iff.mp h
  obtain ⟨hassoc, -⟩ := legalLevel_iff.mp hlegal
  obtain ⟨r, hr, hwf⟩ := CacheLevel.rowAt_isSome h a
  obtain ⟨hlen, -⟩ := Row.wf_iff.mp hwf
  obtain ⟨w, hc, hw⟩ := Row.choose_isSome pick free hassoc hwf
  refine ⟨r, w, hr, hlen, hw, hc, ?_⟩
  have hget : l.rows[rowOf l.params a]? = some r := hr
  simp only [CacheLevel.install, List.modify_eq_set_getElem?, hget, Option.map_eq_map, Option.map_some,
    Option.getD_some, Row.install, hc]

/-- Settles O41: the way is the one `choose` takes, and `put` writes it. -/
theorem installReplacesOneWay : Obligations.InstallReplacesOneWay := by
  intro l pick free m a h
  obtain ⟨r, w, hr, hlen, hw, hc, hrows⟩ := CacheLevel.install_eq_put h pick free m a
  refine ⟨r, w, hr, hw, fun ⟨v, hv, hinvalid⟩ => ?_, fun hfull => ?_, rfl, hrows⟩
  · obtain ⟨-, hfree⟩ | ⟨hfull, -⟩ := Row.choose_cases hc
    · exact hfree
    · cases hinvalid.symm.trans (Row.validAt_of_free_eq_nil hfull (hlen ▸ hv))
  · obtain ⟨-, hfree⟩ | ⟨-, hfront⟩ := Row.choose_cases hc
    · cases hfree.symm.trans (hfull w hw)
    · exact hfront

theorem CacheLevel.readWay_of_way {l : CacheLevel} {a : Addr} {r : Row} {w : Nat} {y : Way} (hr : l.rowAt a = some r)
    (hy : r.ways[w]? = some y) : l.readWay a w = y.data.getD (offsetOf l.params a) 0 := by
  simp only [CacheLevel.readWay, hr, hy]

/-- A way that holds the block of an address delivers, for every address of the block, what memory held there. -/
theorem CacheLevel.readWay_readBlock {l : CacheLevel} {m : Memory} {b : Addr} {r : Row} {w : Nat} {y : Way}
    (hlegal : legalLevel l.params = true) (hr : l.rowAt b = some r) (hy : r.ways[w]? = some y)
    (hdata : y.data = m.readBlock (blockBase l.params b) l.params.blockSize) : l.readWay b w = m.read b.toNat := by
  rw [CacheLevel.readWay_of_way hr hy, hdata, Memory.getD_readBlock _ _ (offsetOf_lt hlegal b), blockBase_add_offset]

/-- The addresses of a block share their row. -/
theorem CacheLevel.rowAt_eq_of_blockNumber (l : CacheLevel) {a b : Addr}
    (h : blockNumber l.params b = blockNumber l.params a) : l.rowAt b = l.rowAt a := by
  simp only [CacheLevel.rowAt, rowOf, h]

/-- Settles O38: the way an install puts the block into is the one the other addresses of the block read. -/
theorem readDeliversTheInstalledWord : Obligations.ReadDeliversTheInstalledWord := by
  refine ⟨fun l a w r y v hr hy hv => ?_, fun l pick free m a h => ?_⟩
  · rw [CacheLevel.readWay_of_way hr hy, List.getD_eq_getElem?_getD, offsetOf, hv, Option.getD_some]
  · obtain ⟨hlegal, -, -⟩ := CacheLevel.wf_iff.mp h
    obtain ⟨r, w, hr, hlen, hw, hc, -⟩ := CacheLevel.install_eq_put h pick free m a
    have hrow := l.rowAt_install pick free m a
    rw [hr, Option.map_some, Row.install, hc] at hrow
    have hway := Row.getElem?_put (v := w) (tag := tagOf l.params a)
      (data := m.readBlock (blockBase l.params a) l.params.blockSize) (hlen ▸ hw)
    rw [if_pos rfl] at hway
    refine ⟨_, w, hrow, Row.getLast?_recency_touch _ w, Row.validAt_iff.mpr ⟨_, hway, rfl⟩, fun b hb => ?_⟩
    have hblock : blockNumber l.params b = blockNumber l.params a := hb
    have hrowb := (l.install pick free m a).rowAt_eq_of_blockNumber hblock
    refine CacheLevel.readWay_readBlock hlegal (hrowb.trans hrow) hway ?_
    simp only [CacheLevel.install_params, blockBase, hblock]

end Sys2Proof.Machine
end

section
/-! ## What a step does to the levels (44_cache_level.md R152)

`Row.Change` says once what can happen to a row in a step. That valid ways stay valid, and that they stay the lowest of
their row, is then shown for its cases. -/

namespace Sys2Proof.Machine

/-! ### Validity after a put and an install -/

theorem Row.validAt_put_iff {r : Row} {w v tag : Nat} {data : List Word} :
    (r.put w tag data).validAt v = true ↔ (v = w ∧ w < r.ways.length) ∨ r.validAt v = true := by
  by_cases hw : w < r.ways.length
  · rw [Row.validAt_put hw]
    simp [hw]
  · have hsame : r.ways.set w ⟨true, tag, data⟩ = r.ways := List.set_eq_of_length_le (Nat.le_of_not_lt hw)
    simp [Row.put, hsame, hw]

/-- Below the way that is chosen with `freeWayPick` lowest every way is valid. -/
theorem Row.validAt_below_choose_lowest {r : Row} {free w v : Nat} (hc : r.choose .lowest free = some w)
    (hw : w < r.ways.length) (hv : v < w) : r.validAt v = true := by
  cases hp : pickWay .lowest free r.free with
  | none => exact Row.validAt_of_free_eq_nil (pickWay_eq_none.mp hp) (hv.trans hw)
  | some u =>
    cases (Row.choose_of_pickWay hp).symm.trans hc
    obtain ⟨-, -, hbelow⟩ := Row.pickWay_lowest_free.mp hp
    exact hbelow v hv

theorem Row.validLow_put {r : Row} {free w : Nat} (h : r.validLow) (hc : r.choose .lowest free = some w) (tag : Nat)
    (data : List Word) : (r.put w tag data).validLow := by
  intro v u hvu hu
  refine Row.validAt_put_iff.mpr (.inr ?_)
  rcases Row.validAt_put_iff.mp hu with ⟨rfl, hw⟩ | hu
  · exact Row.validAt_below_choose_lowest hc hw hvu
  · exact h v u hvu hu

/-! ### The changes of a row -/

/-- What a row can become in a step: it stays, a way of it is touched, a block is installed in it, with the setting of
`freeWayPick`. -/
inductive Row.Change (pick : WayPick) (r : Row) : Row → Prop where
  | same : Change pick r r
  | touch (w : Nat) : Change pick r (r.touch w)
  | install (free tag : Nat) (data : List Word) : Change pick r (r.install pick free tag data)

theorem Row.Change.validAt {pick : WayPick} {r q : Row} (h : r.Change pick q) {w : Nat} (hw : r.validAt w = true) :
    q.validAt w = true := by
  cases h with
  | same => exact hw
  | touch v => exact hw
  | install free tag data =>
    unfold Row.install
    split
    · exact Row.validAt_put_iff.mpr (.inr hw)
    · exact hw

theorem Row.Change.validLow {r q : Row} (h : r.Change .lowest q) (hr : r.validLow) : q.validLow := by
  cases h with
  | same => exact hr
  | touch v => exact hr
  | install free tag data =>
    unfold Row.install
    split
    · next w hc => exact Row.validLow_put hr hc tag data
    · exact hr

/-! ### The changes of a level -/

theorem forall₂_refl_modify {α : Type} {R : α → α → Prop} (hrefl : ∀ x, R x x) {f : α → α} (hf : ∀ x, R x (f x))
    (xs : List α) (k : Nat) : List.Forall₂ R xs (xs.modify k f) := by
  induction xs generalizing k with
  | nil => simp
  | cons x xs ih =>
    cases k with
    | zero => exact .cons (hf x) (List.forall₂_same.mpr fun y _ => hrefl y)
    | succ k => exact .cons (hrefl x) (ih k)

/-- Each row of the one level is a change of the same row of the other. -/
def CacheLevel.Change (pick : WayPick) (l m : CacheLevel) : Prop := List.Forall₂ (Row.Change pick) l.rows m.rows

theorem CacheLevel.change_refl (pick : WayPick) (l : CacheLevel) : l.Change pick l :=
  List.forall₂_same.mpr fun _ _ => .same

theorem CacheLevel.change_touch (pick : WayPick) (l : CacheLevel) (a : Addr) (w : Nat) :
    l.Change pick (l.touch a w) :=
  forall₂_refl_modify (fun _ => .same) (fun _ => .touch w) l.rows _

theorem CacheLevel.change_install (pick : WayPick) (l : CacheLevel) (free : Nat) (m : Memory) (a : Addr) :
    l.Change pick (l.install pick free m a) :=
  forall₂_refl_modify (fun _ => .same) (fun _ => .install free _ _) l.rows _

/-! ### The changes of the levels of a state -/

/-- L1 and L2 change as a level can, and L2 stays configured or absent. -/
def State.LevelsChange (s t : State) : Prop :=
  s.l1.Change s.opts.freeWayPick t.l1 ∧ Option.Rel (CacheLevel.Change s.opts.freeWayPick) s.l2 t.l2

theorem optionRel_refl_map {α : Type} {R : α → α → Prop} {f : α → α} (hf : ∀ x, R x (f x)) (x : Option α) :
    Option.Rel R x (x.map f) := by
  cases x with
  | none => exact .none
  | some x => exact .some (hf x)

theorem State.levelsChange_of_eq {s t : State} (h1 : t.l1 = s.l1) (h2 : t.l2 = s.l2) : s.LevelsChange t := by
  rw [State.LevelsChange, h1, h2]
  refine ⟨CacheLevel.change_refl _ _, ?_⟩
  simpa using optionRel_refl_map (CacheLevel.change_refl s.opts.freeWayPick) s.l2

theorem State.cacheLoad_levelsChange (s : State) (a : Addr) : s.LevelsChange (s.cacheLoad a).2 := by
  obtain ⟨hl1, hl2⟩ := State.levelsChange_of_eq (s := s) rfl rfl
  rcases s.cacheLoad_cases a with ⟨w, -, h⟩ | ⟨-, -, h⟩ | ⟨w, l, -, -, -, h⟩ | ⟨l, -, -, -, h⟩ <;> rw [h]
  · exact ⟨CacheLevel.change_touch _ _ a w, hl2⟩
  · exact ⟨CacheLevel.change_install _ _ _ _ a, hl2⟩
  · exact ⟨hl1, optionRel_refl_map (fun l => CacheLevel.change_touch _ l a w) s.l2⟩
  · exact ⟨CacheLevel.change_install _ _ _ _ a,
      optionRel_refl_map (fun l => CacheLevel.change_install _ l _ s.mem a) s.l2⟩

theorem State.cacheStore_levelsChange (s : State) (a : Addr) (v : Word) : s.LevelsChange (s.cacheStore a v) := by
  rw [State.LevelsChange, State.cacheStore_l1, State.cacheStore_l2]
  exact ⟨CacheLevel.change_install _ _ _ _ a,
    optionRel_refl_map (fun l => CacheLevel.change_install _ l _ (Memory.write s.mem a.toNat v) a) s.l2⟩

theorem Effect.levelsChange {i : Instr} {s t : State} (h : Effect i s t) : s.LevelsChange t := by
  cases h with
  | write hd v => exact State.levelsChange_of_eq rfl rfl
  | jump hd => exact State.levelsChange_of_eq rfl rfl
  | halt => exact State.levelsChange_of_eq rfl rfl
  | load a b imm => exact s.cacheLoad_levelsChange _
  | store a b imm => exact s.cacheStore_levelsChange _ _

theorem step_levelsChange {s t : State} (h : step s = .next t) : s.LevelsChange t := by
  obtain ⟨-, ht⟩ | ⟨-, -, ht⟩ | ⟨i, -, -, -, ht⟩ | ⟨w, -, -, -, ht⟩ := step_cases h
  · cases ht
  · cases ht
    exact State.levelsChange_of_eq rfl rfl
  · exact (exec_effect ht.symm).levelsChange
  · cases ht
    exact State.levelsChange_of_eq rfl rfl

/-- The level with a number that is configured after the step, and what it was before. -/
theorem State.LevelsChange.level? {s t : State} (h : s.LevelsChange t) {n : Nat} {m : CacheLevel}
    (hm : t.level? n = some m) : ∃ l, s.level? n = some l ∧ l.Change s.opts.freeWayPick m := by
  obtain ⟨h1, h2⟩ := h
  rcases State.level?_cases hm with ⟨rfl, rfl⟩ | ⟨rfl, hm2⟩
  · exact ⟨s.l1, rfl, h1⟩
  · rw [hm2] at h2
    generalize hl : s.l2 = l at h2
    cases h2 with
    | some hlm => exact ⟨_, hl, hlm⟩

/-- Settles O42: a change of a row keeps valid ways valid and, with the lowest free way taken, lowest in their row. -/
theorem validWaysOnlyGrow : Obligations.ValidWaysOnlyGrow := by
  intro s t _ hstep
  have hchange := step_levelsChange hstep
  refine ⟨fun n l l' hl hl' k r r' hr hr' w hw => ?_, fun hlowest hlow n l' hl' r' hr' => ?_⟩
  · obtain ⟨m, hm, hml'⟩ := hchange.level? hl'
    cases hl.symm.trans hm
    have hrow := forall₂_getElem? hml' k
    rw [hr, hr'] at hrow
    cases hrow with
    | some hrr' => exact hrr'.validAt hw
  · obtain ⟨l, hl, hll'⟩ := hchange.level? hl'
    rw [hlowest] at hll'
    obtain ⟨k, hk⟩ := List.getElem?_of_mem hr'
    have hrow := forall₂_getElem? hll' k
    rw [hk] at hrow
    generalize hr : l.rows[k]? = r at hrow
    cases hrow with
    | some hrr' => exact hrr'.validLow (hlow n l hl _ (List.mem_of_getElem? hr))

end Sys2Proof.Machine
end

section
/-! ## The level interface (44_cache_level.md R156) -/

namespace Sys2Proof.Machine

/-! ### A level that is not configured -/

theorem State.level?_eq_none {s : State} {n : Nat} (h : (n = 2 ∧ s.l2 = none) ∨ (n ≠ 1 ∧ n ≠ 2)) :
    s.level? n = none := by
  rcases h with ⟨rfl, h2⟩ | ⟨hne1, hne2⟩
  · exact h2
  · refine Option.eq_none_iff_forall_ne_some.mpr fun l hl => ?_
    rcases State.level?_cases hl with ⟨h1, -⟩ | ⟨h2, -⟩
    · exact hne1 h1
    · exact hne2 h2

theorem State.onLevel_absent {s : State} {n : Nat} (h : s.level? n = none) (f : CacheLevel → CacheLevel) :
    s.onLevel n f = s.emit (.invalidCacheSelector n) := by
  have hne1 : n ≠ 1 := by
    rintro rfl
    cases h
  have hl2 : (if n = 2 then s.l2.map f else s.l2) = s.l2 := by
    split
    · next h2 =>
      subst h2
      rw [State.level?_two] at h
      rw [h, Option.map_none]
    · rfl
  simp only [State.onLevel, State.emit, if_neg hne1, hl2, h, Option.isSome_none, Bool.false_eq_true, if_false]

theorem State.onLevel_two {s : State} {l : CacheLevel} (h : s.l2 = some l) (f : CacheLevel → CacheLevel) :
    s.onLevel 2 f = { s with l2 := some (f l) } := by
  simp [State.onLevel, h]

/-! ### The events of a step -/

@[simp] theorem State.invalidCacheSelector_ne_cacheEvent (s : State) (n : LevelName) (st : CacheStatus) (a : Addr)
    (k : Nat) : Event.invalidCacheSelector k ≠ s.cacheEvent n st a := by
  simp [State.cacheEvent]

/-- The trace of `t` is that of `s` and further events, none of which is the diagnostic. -/
def State.AppendsNoSelector (s t : State) : Prop :=
  ∃ es, t.trace = s.trace ++ es ∧ ∀ n, Event.invalidCacheSelector n ∉ es

theorem State.appendsNoSelector_of_eq {s t : State} (h : t.trace = s.trace) : s.AppendsNoSelector t :=
  ⟨[], by rw [h, List.append_nil], fun _ => List.not_mem_nil⟩

theorem State.cacheLoad_appendsNoSelector (s : State) (a : Addr) : s.AppendsNoSelector (s.cacheLoad a).2 := by
  rcases s.cacheLoad_cases a with ⟨w, -, h⟩ | ⟨-, -, h⟩ | ⟨w, l, -, h2, -, h⟩ | ⟨l, -, h2, -, h⟩ <;> rw [h]
  · exact ⟨[s.cacheEvent .L1 .hit a], rfl, fun n => by simp⟩
  · exact ⟨[s.cacheEvent .L1 .miss a], rfl, fun n => by simp⟩
  · exact ⟨[s.cacheEvent .L1 .miss a, s.cacheEvent .L2 .hit a],
      (State.touchLevel_L2_trace (s := (s.emit _).emit _) h2 a w).trans (List.append_assoc _ _ _),
      fun n => by simp⟩
  · exact ⟨[s.cacheEvent .L1 .miss a, s.cacheEvent .L2 .miss a],
      (State.installLevel_L2_trace (s := (s.emit _).emit _) h2 a).trans (List.append_assoc _ _ _),
      fun n => by simp⟩

theorem State.cacheStore_appendsNoSelector (s : State) (a : Addr) (v : Word) :
    s.AppendsNoSelector (s.cacheStore a v) := by
  refine ⟨_, s.cacheStore_trace a v, fun n => ?_⟩
  cases s.l2 <;> simp

theorem Effect.appendsNoSelector {i : Instr} {s t : State} (h : Effect i s t) : s.AppendsNoSelector t := by
  cases h with
  | write hd v => exact State.appendsNoSelector_of_eq rfl
  | jump hd => exact State.appendsNoSelector_of_eq rfl
  | halt => exact State.appendsNoSelector_of_eq rfl
  | load a b imm => exact s.cacheLoad_appendsNoSelector _
  | store a b imm => exact s.cacheStore_appendsNoSelector _ _

theorem step_appendsNoSelector {s t : State} (h : step s = .next t) : s.AppendsNoSelector t := by
  obtain ⟨-, ht⟩ | ⟨-, -, ht⟩ | ⟨i, -, -, -, ht⟩ | ⟨w, -, -, -, ht⟩ := step_cases h
  · cases ht
  · cases ht
    exact State.appendsNoSelector_of_eq rfl
  · exact (exec_effect ht.symm).appendsNoSelector
  · cases ht
    exact ⟨[.invalidInstruction s.pc w], rfl, fun n => by simp⟩

/-- Settles O43: the two forms of access at each level, configured and absent, and the events of a step. -/
theorem levelsAreSelectedByNumber : Obligations.LevelsAreSelectedByNumber := by
  refine ⟨fun _ _ => rfl, fun _ _ f h => State.onLevel_two h f,
    fun _ _ f h => State.onLevel_absent (State.level?_eq_none h) f,
    fun _ _ _ f absent => ⟨fun _ h => State.queryLevel_configured h f absent,
      fun h => State.queryLevel_absent (State.level?_eq_none h) f absent⟩,
    fun s a w h => ?_, fun s t h n => ?_⟩
  · have habsent : s.level? 2 = none := h
    have hlookup : s.lookup .L2 a = (none, s.emit (.invalidCacheSelector 2)) := State.queryLevel_absent habsent _ _
    have hread : s.read .L2 a w = (0, s.emit (.invalidCacheSelector 2)) := State.queryLevel_absent habsent _ _
    rw [hlookup, hread]
    exact ⟨rfl, rfl, rfl⟩
  · obtain ⟨es, htrace, hes⟩ := step_appendsNoSelector h
    rw [htrace, List.count_append, List.count_eq_zero_of_not_mem (hes n), Nat.add_zero]

end Sys2Proof.Machine
end

section
/-! ## What a load and a store do (45_cache_hierarchy.md R172 to R179)

`exec_lw_of_cacheLoad` says once how `lw` follows from what the hierarchy answered; each case of the table of R175 then
only adds the levels and the events of that case. -/

namespace Sys2Proof.Machine

/-! ### A load, from the answer of the hierarchy (R182) -/

theorem exec_lw_of_cacheLoad {a b : Reg} {imm : Int} {s u : State} {v : Word}
    (h : s.cacheLoad (effectiveAddr (s.readReg a) imm) = (v, u)) :
    exec (.lw a b imm) s = .next ((u.writeReg b v).incrPc 1) ∧ s.wrote ((u.writeReg b v).incrPc 1) b v
      ∧ s.advanced ((u.writeReg b v).incrPc 1) ∧ u.mem = s.mem ∧ u.runState = s.runState ∧ u.opts = s.opts := by
  obtain ⟨-, hregs, hmem, hrun, hopts, -⟩ := s.cacheLoad_frame (effectiveAddr (s.readReg a) imm)
  have hlw := exec_lw a b imm s
  rw [h] at hregs hmem hrun hopts hlw
  exact ⟨hlw, State.wrote_writeReg hregs b v, exec_advances hlw rfl, hmem, hrun, hopts⟩

/-- Settles O26: the first case of the table of R175. -/
theorem loadHitsL1 : Obligations.LoadHitsL1 := by
  intro a b imm s w addr hhit
  obtain ⟨hlw, hwrote, hadv, hmem, hrun, hopts⟩ := exec_lw_of_cacheLoad (b := b) (State.cacheLoad_of_hit_L1 hhit)
  exact ⟨_, hlw, hwrote, hadv, rfl, rfl, hmem, hrun, hopts, rfl⟩

/-- Whether a lookup misses does not depend on the free choice among the matching ways. -/
theorem CacheLevel.lookup_eq_none_of_lookup_eq_none {l : CacheLevel} {pick : WayPick} {free : Nat} {a : Addr}
    (h : l.lookup pick free a = none) (pick' : WayPick) (free' : Nat) : l.lookup pick' free' a = none := by
  unfold CacheLevel.lookup at h ⊢
  split
  · next r hr =>
    rw [hr] at h
    exact pickWay_eq_none.mpr (pickWay_eq_none.mp h)
  · rfl

theorem State.cacheEvent_L2 {s : State} {l : CacheLevel} (h : s.l2 = some l) (st : CacheStatus) (a : Addr) :
    s.cacheEvent .L2 st a = .cache .L2 st s.pc a (rowOf l.params a) := by
  simp [State.cacheEvent, State.rowIndex, LevelName.number, h]

/-- Settles O27: the case of R175 in which L2 alone is touched; L1 is as it was, so it misses again. -/
theorem loadHitsL2 : Obligations.LoadHitsL2 := by
  intro a b imm s l2 w addr h2 hmiss hhit
  obtain ⟨hlw, hwrote, hadv, hmem, hrun, hopts⟩ :=
    exec_lw_of_cacheLoad (b := b) (State.cacheLoad_of_hit_L2 hmiss h2 hhit)
  rw [State.readLevel_L2 h2] at hlw hwrote hadv
  refine ⟨_, hlw, hwrote, hadv, rfl, CacheLevel.lookup_eq_none_of_lookup_eq_none hmiss _ _,
    congrArg (Option.map (CacheLevel.touch · addr w)) h2, hmem, hrun, hopts, ?_⟩
  rw [← State.cacheEvent_L2 h2]
  exact (State.touchLevel_L2_trace (s := (s.emit _).emit _) h2 addr w).trans (List.append_assoc _ _ _)

/-- Settles O31: L2 is only touched, which changes no lookup, and the ascending scan has no free choice. -/
theorem l2HitIsNeverPromoted : Obligations.L2HitIsNeverPromoted := by
  intro a b imm s w addr hscan hsome hmiss hhit
  obtain ⟨l2, h2⟩ := Option.ne_none_iff_exists'.mp hsome
  obtain ⟨t, ht, -, -, -, hmiss', h2', -, -, hopts, -⟩ := loadHitsL2 a b imm s l2 w h2 hmiss hhit
  refine ⟨t, ht, fun hbase => ?_⟩
  rw [hbase]
  refine ⟨hmiss', ?_⟩
  rw [State.lookupLevel_L2 h2, hscan] at hhit
  rw [State.lookupLevel_L2 h2', CacheLevel.lookup_touch, hopts, hscan]
  exact hhit

/-! ### What an install leaves in a level (44_cache_level.md R151, R155) -/

/-- The most recently used way of the address's row is valid, has the tag of the address, and its word at the address is
`v`. -/
def CacheLevel.HoldsRecent (l : CacheLevel) (a : Addr) (v : Word) : Prop :=
  ∃ r w, l.rowAt a = some r ∧ r.matchesAt (tagOf l.params a) w = true ∧ l.readWay a w = v
    ∧ r.recency.getLast? = some w

theorem CacheLevel.holdsRecent_install {l : CacheLevel} (h : l.wf = true) (pick : WayPick) (free : Nat) (m : Memory)
    (a : Addr) : (l.install pick free m a).HoldsRecent a (m.read a.toNat) := by
  obtain ⟨hlegal, -, -⟩ := CacheLevel.wf_iff.mp h
  obtain ⟨r, w, hr, hlen, hw, hc, -⟩ := CacheLevel.install_eq_put h pick free m a
  have hrow := l.rowAt_install pick free m a
  rw [hr, Option.map_some, Row.install, hc] at hrow
  have hway := Row.getElem?_put (v := w) (tag := tagOf l.params a)
    (data := m.readBlock (blockBase l.params a) l.params.blockSize) (hlen ▸ hw)
  rw [if_pos rfl] at hway
  exact ⟨_, w, hrow, Row.matchesAt_iff.mpr ⟨_, hway, rfl, rfl⟩, CacheLevel.readWay_readBlock hlegal hrow hway rfl,
    Row.getLast?_recency_touch _ w⟩

/-- When the levels of `t` are those of a state with the invariant after an install in each. -/
theorem State.holdsRecent_of_installs {s t : State} {pick : WayPick} {free : LevelName → Nat} {m : Memory} {a : Addr}
    (h : s.inv = true) (h1 : t.l1 = s.l1.install pick (free .L1) m a)
    (h2 : t.l2 = s.l2.map fun l => l.install pick (free .L2) m a) {n : Nat} {l : CacheLevel}
    (hl : t.level? n = some l) : l.HoldsRecent a (m.read a.toNat) := by
  obtain ⟨-, -, hwf1, hwf2⟩ := State.inv_iff.mp h
  rcases State.level?_cases hl with ⟨-, rfl⟩ | ⟨-, hl2⟩
  · rw [h1]
    exact CacheLevel.holdsRecent_install hwf1 _ _ _ _
  · obtain ⟨l', hl', rfl⟩ := Option.map_eq_some_iff.mp (h2.symm.trans hl2)
    exact CacheLevel.holdsRecent_install (hwf2 l' hl') _ _ _ _

/-- A load that misses every configured level: the word from memory, an install in each, and the misses (R174). -/
theorem State.cacheLoad_of_misses {s : State} {a : Addr} (h1 : s.lookupLevel .L1 a = none)
    (h2 : s.l2 ≠ none → s.lookupLevel .L2 a = none) : ∃ u, s.cacheLoad a = (s.readMem a, u)
      ∧ u.l1 = s.l1.install s.opts.freeWayPick (Config.freeInstallWay .L1 s.draws) s.mem a
      ∧ u.l2 = s.l2.map (fun l => l.install s.opts.freeWayPick (Config.freeInstallWay .L2 s.draws) s.mem a)
      ∧ u.trace = s.trace ++ Event.cache .L1 .miss s.pc a (rowOf s.l1.params a) ::
        (match s.l2 with | none => [] | some l => [Event.cache .L2 .miss s.pc a (rowOf l.params a)]) := by
  cases hl2 : s.l2 with
  | none => exact ⟨_, State.cacheLoad_of_miss_without_L2 h1 hl2, rfl, hl2, rfl⟩
  | some l =>
    refine ⟨_, State.cacheLoad_of_miss_L2 h1 hl2 (h2 (by simp [hl2])), rfl,
      congrArg (Option.map (CacheLevel.install · _ _ _ a)) hl2, ?_⟩
    simp only [← State.cacheEvent_L2 hl2]
    exact (State.installLevel_L2_trace (s := (s.emit _).emit _) hl2 a).trans (List.append_assoc _ _ _)

/-- Settles O28: every configured level installs the block from memory, and an install leaves it most recently used. -/
theorem loadMissesEveryLevel : Obligations.LoadMissesEveryLevel := by
  intro a b imm s addr install hmiss1 hmiss2
  obtain ⟨u, hload, hl1, hl2, htrace⟩ := State.cacheLoad_of_misses hmiss1 hmiss2
  obtain ⟨hlw, hwrote, hadv, hmem, hrun, hopts⟩ := exec_lw_of_cacheLoad (b := b) hload
  exact ⟨_, hlw, hwrote, hadv, hl1, hl2, hmem, hrun, hopts, htrace, fun hinv _ _ hl =>
    State.holdsRecent_of_installs (free := fun n => Config.freeInstallWay n s.draws) hinv hl1 hl2 hl⟩

/-! ### A store (R176 to R179) -/

/-- Settles O29: the laws of `State.cacheStore`, with the memory after the store as what the levels install from. -/
theorem storeWritesThroughAndInstalls : Obligations.StoreWritesThroughAndInstalls := by
  intro a b imm s addr
  obtain ⟨t, hsw, hregs, hadv, hsame, hother, hrun, hopts, -⟩ := (loadAndStoreAlwaysComplete a b imm s).2
  cases (exec_sw a b imm s).symm.trans hsw
  obtain ⟨-, -, hmem, -⟩ := s.cacheStore_frame addr (s.readReg b)
  refine ⟨_, hsw, hregs, hadv, hsame, hother, ?_, ?_, hrun, hopts, s.cacheStore_trace addr (s.readReg b)⟩
  · rw [State.incrPc_mem, hmem]
    exact s.cacheStore_l1 addr (s.readReg b)
  · rw [State.incrPc_mem, hmem]
    exact s.cacheStore_l2 addr (s.readReg b)

/-- Settles O30: every level installs from the memory that holds the stored word. -/
theorem storeLeavesTheStoredWordInEveryLevel : Obligations.StoreLeavesTheStoredWordInEveryLevel := by
  intro a b imm s t addr hinv ht n l hl
  obtain ⟨u, hu, -, -, hsame, -, hl1, hl2, -⟩ := storeWritesThroughAndInstalls a b imm s
  cases ht.symm.trans hu
  rw [← hsame]
  exact State.holdsRecent_of_installs (free := fun n => Config.freeInstallWay n s.draws) hinv hl1 hl2 hl

end Sys2Proof.Machine
end

section
/-! ## The stale hit (45_cache_hierarchy.md R183)

A store installs without looking up, so a second install of one block goes into a second way, and the ascending scan
keeps finding the first. -/

namespace Sys2Proof.Machine

theorem CacheLevel.rowAt_empty {p : LevelParams} (h : legalLevel p = true) (a : Addr) :
    (CacheLevel.empty p).rowAt a = some (emptyRow p) := by
  obtain ⟨r, hr, -⟩ := CacheLevel.rowAt_isSome (CacheLevel.wf_empty h) a
  rw [hr, List.eq_of_mem_replicate (List.mem_of_getElem? hr)]

/-- An empty level misses. -/
theorem CacheLevel.lookup_empty (p : LevelParams) (pick : WayPick) (free : Nat) (a : Addr) :
    (CacheLevel.empty p).lookup pick free a = none := by
  refine Option.eq_none_iff_forall_ne_some.mpr fun w hw => ?_
  obtain ⟨r, hr, hmatch⟩ := CacheLevel.lookup_some hw
  obtain ⟨-, -, hinvalid⟩ := CacheLevel.row_of_empty (List.mem_of_getElem? hr)
  cases (hinvalid w).symm.trans (Row.validAt_of_matchesAt hmatch)

/-- With the lowest free way taken, the first two installs in a row of two ways go into way 0, then way 1. -/
theorem Row.install_install_twoWay (free free' tag : Nat) (old new : List Word) :
    ((emptyRow ⟨2, 2, 1⟩).install .lowest free tag old).install .lowest free' tag new
      = ⟨[⟨true, tag, old⟩, ⟨true, tag, new⟩], [0, 1]⟩ := rfl

/-- The level of R183 after two installs of the block of one address, from different memories: the lookup finds the way of
the first. -/
theorem CacheLevel.stale_hit_twoWay {l : CacheLevel} {free free' : Nat} {m m' : Memory} {a : Addr}
    (hl : l = ((CacheLevel.empty ⟨2, 2, 1⟩).install .lowest free m a).install .lowest free' m' a) (free'' : Nat) :
    l.lookup .lowest free'' a = some 0 ∧ l.readWay a 0 = m.read a.toNat := by
  have hlegal : legalLevel ⟨2, 2, 1⟩ = true := by decide
  have hparams : l.params = ⟨2, 2, 1⟩ := hl ▸ rfl
  have hfirst := (CacheLevel.empty ⟨2, 2, 1⟩).rowAt_install .lowest free m a
  rw [CacheLevel.rowAt_empty hlegal, Option.map_some, CacheLevel.empty_params] at hfirst
  have hrow := ((CacheLevel.empty ⟨2, 2, 1⟩).install .lowest free m a).rowAt_install .lowest free' m' a
  rw [← hl, hfirst, Option.map_some, CacheLevel.install_params, CacheLevel.empty_params,
    Row.install_install_twoWay] at hrow
  constructor
  · rw [CacheLevel.lookup_of_rowAt hrow, Row.pickWay_lowest_matching, hparams]
    exact ⟨Row.matchesAt_iff.mpr ⟨_, rfl, rfl, rfl⟩, fun v hv => absurd hv (Nat.not_lt_zero v)⟩
  · exact CacheLevel.readWay_readBlock (hparams ▸ hlegal) hrow rfl (hparams ▸ rfl)

/-- The level of R183 has one row. -/
theorem rowOf_twoWay (a : Addr) : rowOf ⟨2, 2, 1⟩ a = 0 := Nat.mod_one _

/-- Settles O32: a miss, a store and a hit in turn, the level after them being that of `CacheLevel.stale_hit_twoWay`. -/
theorem staleHitAfterStore : Obligations.StaleHitAfterStore := by
  intro s base d src e imm addr h1 h2 hscan hpick hdbase hdsrc he
  have hmiss : s.lookupLevel .L1 addr = none := by
    rw [State.lookupLevel_L1, h1]
    exact CacheLevel.lookup_empty _ _ _ _
  obtain ⟨t₁, hlw₁, ⟨-, hregs₁, -⟩, -, hl1₁, hl2₁, -, -, hopts₁, htrace₁, -⟩ :=
    loadMissesEveryLevel base d imm s hmiss fun h => absurd h2 h
  have hbase₁ : t₁.readReg base = s.readReg base := hregs₁ base hdbase.symm
  have hsrc₁ : t₁.readReg src = s.readReg src := hregs₁ src hdsrc.symm
  have hstore := storeWritesThroughAndInstalls base src imm t₁
  rw [hbase₁] at hstore
  obtain ⟨t₂, hsw, hregs₂, -, hstored, -, hl1₂, -, -, hopts₂, htrace₂⟩ := hstore
  have hbase₂ : t₂.readReg base = s.readReg base := (hregs₂ base).trans hbase₁
  have hl1 : t₂.l1 = ((CacheLevel.empty ⟨2, 2, 1⟩).install .lowest (Config.freeInstallWay .L1 s.draws) s.mem
      addr).install .lowest (Config.freeInstallWay .L1 t₁.draws) t₂.mem addr := by
    rw [hl1₂, hopts₁, hpick, hl1₁, hpick, h1]
  obtain ⟨hfound, hread⟩ := CacheLevel.stale_hit_twoWay hl1 (Config.freeHitWay .L1 t₂.draws)
  have hhit : t₂.lookupLevel .L1 (effectiveAddr (t₂.readReg base) imm) = some 0 := by
    rw [hbase₂, State.lookupLevel_L1, hopts₂, hopts₁, hscan]
    exact hfound
  obtain ⟨t₃, hlw₂, ⟨he₃, -, -⟩, -, -, -, hmem₃, -, -, htrace₃⟩ := loadHitsL1 base e imm t₂ 0 hhit
  rw [hbase₂] at he₃ htrace₃
  refine ⟨t₁, t₂, t₃, hlw₁, hsw, hlw₂, (he₃ he).trans hread, ?_, ?_⟩
  · exact (State.readMem_congr hmem₃ addr).trans (hstored.trans hsrc₁)
  · rw [htrace₃, htrace₂, htrace₁, hl1, hl1₁, hl2₁, h2, h1]
    simp [rowOf_twoWay, addr]

end Sys2Proof.Machine
end

section
/-! ## Direct-mapped levels (45_cache_hierarchy.md R184)

A level stays coherent under every touch and under every install from the memory it is coherent with. A store changes one
word of memory first: in a direct-mapped level every way but the one it installs into holds a block of another row, which
the word is not in. -/

namespace Sys2Proof.Machine

/-! ### Coherent rows -/

/-- Every valid way of a row with number `k` holds what memory holds for its block. -/
def Row.Coherent (p : LevelParams) (m : Memory) (k : Nat) (r : Row) : Prop :=
  ∀ y ∈ r.ways, y.valid = true → y.data = m.readBlock ((y.tag * rowCount p + k) * p.blockSize) p.blockSize

theorem CacheLevel.coherent_iff {l : CacheLevel} {m : Memory} :
    l.coherent m ↔ ∀ (k : Nat) (r : Row), l.rows[k]? = some r → r.Coherent l.params m k := Iff.rfl

/-- The block of an address, by its tag and row (R143, R145). -/
theorem blockBase_eq (p : LevelParams) (a : Addr) :
    (tagOf p a * rowCount p + rowOf p a) * p.blockSize = blockBase p a := by
  rw [blockNumber_eq, blockBase]

theorem Row.Coherent.install {p : LevelParams} {m : Memory} {a : Addr} {r : Row} (h : r.Coherent p m (rowOf p a))
    (pick : WayPick) (free : Nat) :
    (r.install pick free (tagOf p a) (m.readBlock (blockBase p a) p.blockSize)).Coherent p m (rowOf p a) := by
  unfold Row.install
  split
  · intro y hy hv
    rcases List.mem_or_eq_of_mem_set hy with hold | rfl
    · exact h y hold hv
    · rw [blockBase_eq]
  · exact h

/-! ### Coherent levels -/

/-- A change of one row. -/
theorem CacheLevel.coherent_modify {l : CacheLevel} {m : Memory} {k : Nat} {f : Row → Row} (h : l.coherent m)
    (hf : ∀ r : Row, r.Coherent l.params m k → (f r).Coherent l.params m k) :
    ({ l with rows := l.rows.modify k f } : CacheLevel).coherent m := by
  refine CacheLevel.coherent_iff.mpr fun j q hq => ?_
  rw [List.getElem?_modify] at hq
  obtain ⟨r, hr, rfl⟩ := Option.map_eq_some_iff.mp hq
  split
  · next hkj => subst hkj; exact hf r (h k r hr)
  · exact h j r hr

theorem CacheLevel.coherent_touch {l : CacheLevel} {m : Memory} (h : l.coherent m) (a : Addr) (w : Nat) :
    (l.touch a w).coherent m :=
  CacheLevel.coherent_modify h fun _ hr => hr

theorem CacheLevel.coherent_install {l : CacheLevel} {m : Memory} (h : l.coherent m) (pick : WayPick) (free : Nat)
    (a : Addr) : (l.install pick free m a).coherent m :=
  CacheLevel.coherent_modify h fun _ hr => Row.Coherent.install hr pick free

theorem CacheLevel.coherent_empty (p : LevelParams) (m : Memory) : (CacheLevel.empty p).coherent m := by
  intro k r hr y hy hv
  obtain ⟨-, -, hinvalid⟩ := CacheLevel.row_of_empty (List.mem_of_getElem? hr)
  obtain ⟨w, hw⟩ := List.getElem?_of_mem hy
  cases (hinvalid w).symm.trans (Row.validAt_iff.mpr ⟨y, hw, hv⟩)

/-- A hit in a coherent level delivers what memory holds at the address. -/
theorem CacheLevel.readWay_of_coherent {l : CacheLevel} {m : Memory} {pick : WayPick} {free w : Nat} {a : Addr}
    (hwf : l.wf = true) (h : l.coherent m) (hw : l.lookup pick free a = some w) : l.readWay a w = m.read a.toNat := by
  obtain ⟨hlegal, -, -⟩ := CacheLevel.wf_iff.mp hwf
  obtain ⟨r, hr, hmatch⟩ := CacheLevel.lookup_some hw
  obtain ⟨y, hy, hv, htag⟩ := Row.matchesAt_iff.mp hmatch
  refine CacheLevel.readWay_readBlock hlegal hr hy ?_
  rw [h _ r hr y (List.mem_of_getElem? hy) hv, htag, blockBase_eq]

/-! ### A store into a direct-mapped level -/

/-- A write outside a block does not change the block. -/
theorem Memory.readBlock_write_outside {m : Memory} {base n a : Nat} (v : Word) (h : ∀ i < n, base + i ≠ a) :
    (m.write a v).readBlock base n = m.readBlock base n :=
  List.map_congr_left fun i hi => Memory.read_write_other m (h i (List.mem_range.mp hi)) v

/-- An address is in no block of another row than its own. -/
theorem block_add_ne_of_rowOf_ne {p : LevelParams} {a : Addr} {k : Nat} (hk : k < rowCount p) (hne : k ≠ rowOf p a)
    (tag : Nat) {i : Nat} (hi : i < p.blockSize) : (tag * rowCount p + k) * p.blockSize + i ≠ a.toNat := by
  intro heq
  have hblock : blockNumber p a = tag * rowCount p + k := by
    rw [blockNumber, ← heq, Nat.mul_comm, Nat.mul_add_div (by omega), Nat.div_eq_of_lt hi, Nat.add_zero]
  refine hne ?_
  rw [rowOf, hblock, Nat.mul_comm, Nat.mul_add_mod, Nat.mod_eq_of_lt hk]

/-- A put into the only way of a row leaves no other. -/
theorem Row.mem_ways_put_of_length_one {r : Row} {w tag : Nat} {data : List Word} {y : Way} (hlen : r.ways.length = 1)
    (hw : w < 1) (hy : y ∈ (r.put w tag data).ways) : y = ⟨true, tag, data⟩ := by
  obtain ⟨z, hz⟩ := List.length_eq_one_iff.mp hlen
  obtain rfl : w = 0 := Nat.lt_one_iff.mp hw
  simpa [Row.put, hz] using hy

/-- A write of one word and an install of its block keep a direct-mapped level coherent. -/
theorem CacheLevel.coherent_install_write {l : CacheLevel} {m : Memory} (hwf : l.wf = true) (hA : l.params.assoc = 1)
    (h : l.coherent m) (pick : WayPick) (free : Nat) (a : Addr) (v : Word) :
    (l.install pick free (m.write a.toNat v) a).coherent (m.write a.toNat v) := by
  obtain ⟨-, hlen, -⟩ := CacheLevel.wf_iff.mp hwf
  obtain ⟨r, w, hr, hways, hw, hc, hrows⟩ := CacheLevel.install_eq_put hwf pick free (m.write a.toNat v) a
  intro k q hq y hy hv
  by_cases hk : rowOf l.params a = k
  · subst hk
    have hrow := l.rowAt_install pick free (m.write a.toNat v) a
    rw [hr, Option.map_some, Row.install, hc] at hrow
    cases hrow.symm.trans hq
    rw [Row.mem_ways_put_of_length_one (hways.trans hA) (hA ▸ hw) hy, CacheLevel.install_params, blockBase_eq]
  · rw [hrows, List.getElem?_set_ne hk] at hq
    have hlt : k < rowCount l.params := hlen ▸ (List.getElem?_eq_some_iff.mp hq).1
    rw [CacheLevel.install_params, Memory.readBlock_write_outside v fun i hi =>
      block_add_ne_of_rowOf_ne hlt (Ne.symm hk) y.tag hi]
    exact h k q hq y hy hv

/-! ### Coherent states -/

theorem State.coherent_iff {s : State} :
    s.coherent ↔ s.l1.coherent s.mem ∧ ∀ l, s.l2 = some l → l.coherent s.mem := by
  refine ⟨fun h => ⟨h 1 s.l1 rfl, fun l hl => h 2 l hl⟩, fun ⟨h1, h2⟩ n l hl => ?_⟩
  rcases State.level?_cases hl with ⟨-, rfl⟩ | ⟨-, hl2⟩
  · exact h1
  · exact h2 l hl2

/-- Coherence speaks of memory and the levels only. -/
theorem State.coherent_congr {s t : State} (hmem : t.mem = s.mem) (hl1 : t.l1 = s.l1) (hl2 : t.l2 = s.l2)
    (h : s.coherent) : t.coherent := by
  rw [State.coherent_iff] at h ⊢
  rwa [hmem, hl1, hl2]

/-- An operation that keeps the level it is applied to coherent. -/
theorem State.coherent_onLevel {s : State} {f : CacheLevel → CacheLevel} (h : s.coherent)
    (hf : ∀ l, l.coherent s.mem → (f l).coherent s.mem) (n : Nat) : (s.onLevel n f).coherent := by
  obtain ⟨h1, h2⟩ := State.coherent_iff.mp h
  refine State.coherent_iff.mpr ⟨?_, fun l hl => ?_⟩
  · simp only [State.onLevel]
    split
    · exact hf _ h1
    · exact h1
  · simp only [State.onLevel] at hl
    split at hl
    · obtain ⟨l', hl', rfl⟩ := Option.map_eq_some_iff.mp hl
      exact hf l' (h2 l' hl')
    · exact h2 l hl

theorem State.coherent_touchLevel {s : State} (h : s.coherent) (n : LevelName) (a : Addr) (w : Nat) :
    (s.touchLevel n a w).coherent :=
  State.coherent_onLevel h (fun _ hl => CacheLevel.coherent_touch hl a w) n.number

theorem State.coherent_installLevel {s : State} (h : s.coherent) (n : LevelName) (a : Addr) :
    (s.installLevel n a).coherent :=
  State.coherent_onLevel h (fun _ hl => CacheLevel.coherent_install hl _ _ a) n.number

/-- A load keeps coherence, whatever the associativity. -/
theorem State.coherent_cacheLoad {s : State} (h : s.coherent) (a : Addr) : (s.cacheLoad a).2.coherent := by
  rcases s.cacheLoad_cases a with ⟨w, -, hc⟩ | ⟨-, -, hc⟩ | ⟨w, l, -, -, -, hc⟩ | ⟨l, -, -, -, hc⟩ <;> rw [hc]
  · exact State.coherent_touchLevel (s := s.emit _) h .L1 a w
  · exact State.coherent_installLevel (s := s.emit _) h .L1 a
  · exact State.coherent_touchLevel (s := (s.emit _).emit _) h .L2 a w
  · exact State.coherent_installLevel (State.coherent_installLevel (s := (s.emit _).emit _) h .L2 a) .L1 a

/-- A store keeps coherence when the levels are direct-mapped. -/
theorem State.coherent_cacheStore {s : State} (hinv : s.inv = true) (hdm : s.directMapped) (h : s.coherent) (a : Addr)
    (v : Word) : (s.cacheStore a v).coherent := by
  obtain ⟨-, -, hwf1, hwf2⟩ := State.inv_iff.mp hinv
  obtain ⟨h1, h2⟩ := State.coherent_iff.mp h
  obtain ⟨-, -, hmem, -⟩ := s.cacheStore_frame a v
  rw [State.coherent_iff, hmem, State.cacheStore_l1, State.cacheStore_l2]
  refine ⟨CacheLevel.coherent_install_write hwf1 (hdm 1 _ rfl) h1 _ _ a v, fun l' hl' => ?_⟩
  obtain ⟨l, hl, rfl⟩ := Option.map_eq_some_iff.mp hl'
  exact CacheLevel.coherent_install_write (hwf2 l hl) (hdm 2 l hl) (h2 l hl) _ _ a v

/-! ### Instructions and steps -/

theorem Effect.keeps_coherent {i : Instr} {s t : State} (h : Effect i s t) (hinv : s.inv = true)
    (hdm : s.directMapped) (hs : s.coherent) : t.coherent := by
  cases h with
  | write hd v => exact hs
  | jump hd => exact hs
  | halt => exact hs
  | load a b imm => exact State.coherent_congr (s := (s.cacheLoad _).2) rfl rfl rfl (State.coherent_cacheLoad hs _)
  | store a b imm =>
    exact State.coherent_congr (s := s.cacheStore _ _) rfl rfl rfl (State.coherent_cacheStore hinv hdm hs _ _)

theorem step_keeps_coherent {s t : State} (h : step s = .next t) (hinv : s.inv = true) (hdm : s.directMapped)
    (hs : s.coherent) : t.coherent := by
  obtain ⟨-, ht⟩ | ⟨-, -, ht⟩ | ⟨i, -, -, -, ht⟩ | ⟨w, -, -, -, ht⟩ := step_cases h
  · cases ht
  · cases ht
    exact hs
  · exact (exec_effect ht.symm).keeps_coherent hinv hdm hs
  · cases ht
    exact State.coherent_congr (s := s) rfl rfl rfl hs

theorem State.first_config (s : State) : CacheConfig.first s.config = s.l1.params := by
  cases h : s.l2 <;> simp [State.config, CacheConfig.first, h]

theorem State.second_config (s : State) : CacheConfig.second s.config = s.l2.map CacheLevel.params := by
  cases h : s.l2 <;> simp [State.config, CacheConfig.second, h]

/-- Whether every level is direct-mapped is a matter of the configuration. -/
theorem State.directMapped_iff {s : State} : s.directMapped ↔
    (CacheConfig.first s.config).assoc = 1 ∧ ∀ p, CacheConfig.second s.config = some p → p.assoc = 1 := by
  rw [State.first_config, State.second_config]
  constructor
  · refine fun h => ⟨h 1 s.l1 rfl, fun p hp => ?_⟩
    obtain ⟨l, hl, rfl⟩ := Option.map_eq_some_iff.mp hp
    exact h 2 l hl
  · rintro ⟨h1, h2⟩ n l hl
    rcases State.level?_cases hl with ⟨-, rfl⟩ | ⟨-, hl2⟩
    · exact h1
    · exact h2 l.params (Option.map_eq_some_iff.mpr ⟨l, hl2, rfl⟩)

theorem State.SameConstants.directMapped {s t : State} (h : s.SameConstants t) (hs : s.directMapped) :
    t.directMapped := by
  rw [State.directMapped_iff] at hs ⊢
  rwa [h.1]

/-- Settles O33: the configuration is constant, and in a direct-mapped level a store leaves no valid way behind whose
block it changed. -/
theorem directMappedLevelsStayCoherent : Obligations.DirectMappedLevelsStayCoherent :=
  fun _ _ hinv hdm hs hstep => ⟨(step_keeps_constants hstep).directMapped hdm, step_keeps_coherent hstep hinv hdm hs⟩

/-! ### Loads from coherent levels -/

theorem State.cacheLoad_value_of_coherent {s : State} (hinv : s.inv = true) (h : s.coherent) (a : Addr) :
    (s.cacheLoad a).1 = s.readMem a := by
  obtain ⟨-, -, hwf1, hwf2⟩ := State.inv_iff.mp hinv
  obtain ⟨h1, h2⟩ := State.coherent_iff.mp h
  rcases s.cacheLoad_cases a with ⟨w, hw, hc⟩ | ⟨-, -, hc⟩ | ⟨w, l, -, hl, hw, hc⟩ | ⟨l, -, -, -, hc⟩ <;> rw [hc]
  · exact CacheLevel.readWay_of_coherent hwf1 h1 hw
  · rw [State.lookupLevel_L2 hl] at hw
    rw [State.readLevel_L2 hl]
    exact CacheLevel.readWay_of_coherent (hwf2 l hl) (h2 l hl) hw

theorem State.start_coherent (cfg : CacheConfig) (opts : OpenParams) (regFill memFill : Word) (image : List Word) :
    (State.start cfg opts regFill memFill image).coherent := by
  intro n l hl
  rw [State.start_level hl]
  exact CacheLevel.coherent_empty _ _

/-- Settles O34: a hit in a coherent level delivers what memory holds, and the empty levels of a start are coherent. -/
theorem directMappedLoadReturnsMemory : Obligations.DirectMappedLoadReturnsMemory := by
  refine ⟨fun a b imm s hinv _ hs => ?_, State.start_coherent⟩
  obtain ⟨hlw, hwrote, -⟩ := exec_lw_of_cacheLoad (a := a) (b := b) (imm := imm) (s := s) (Prod.mk.eta).symm
  rw [State.cacheLoad_value_of_coherent hinv hs] at hlw hwrote
  exact ⟨_, hlw, hwrote⟩

end Sys2Proof.Machine
end

section
/-! ## The trace (46_interfaces_trace.md R195, 70_reset_and_hazards.md R244)

That the trace is never read is a simulation: a state and the same state with another past on its trace answer alike,
and every operation appends the same events to both. -/

namespace Sys2Proof.Machine

/-! ### Events appended -/

theorem State.cacheLoad_trace_length_le (s : State) (a : Addr) :
    (s.cacheLoad a).2.trace.length ≤ s.trace.length + 2 := by
  rcases s.cacheLoad_cases a with ⟨w, -, h⟩ | ⟨-, -, h⟩ | ⟨w, l, -, h2, -, h⟩ | ⟨l, -, h2, -, h⟩ <;> rw [h]
  · simp
  · simp
  · simp [State.touchLevel_L2_trace (s := (s.emit _).emit _) h2]
  · simp [State.installLevel_L2_trace (s := (s.emit _).emit _) h2]

theorem State.cacheStore_trace_length_le (s : State) (a : Addr) (v : Word) :
    (s.cacheStore a v).trace.length ≤ s.trace.length + 2 := by
  rw [State.cacheStore_trace]
  cases s.l2 <;> simp

theorem Effect.trace_length_le {i : Instr} {s t : State} (h : Effect i s t) : t.trace.length ≤ s.trace.length + 2 := by
  cases h with
  | write hd v => exact Nat.le_add_right _ _
  | jump hd => exact Nat.le_add_right _ _
  | halt => exact Nat.le_add_right _ _
  | load a b imm => exact s.cacheLoad_trace_length_le _
  | store a b imm => exact s.cacheStore_trace_length_le _ _

theorem step_trace_length_le {s t : State} (h : step s = .next t) : t.trace.length ≤ s.trace.length + 2 := by
  obtain ⟨-, ht⟩ | ⟨-, -, ht⟩ | ⟨i, -, -, -, ht⟩ | ⟨w, -, -, -, ht⟩ := step_cases h
  · cases ht
  · cases ht
    exact Nat.le_add_right _ _
  · exact (exec_effect ht.symm).trace_length_le
  · cases ht
    simp

/-! ### Another past on the trace -/

/-- `s'` is `s` with the past `old'` on the trace in the place of the past `old`. -/
def State.ReplacesPast (old old' : List Event) (s s' : State) : Prop :=
  ∃ es, s.trace = old ++ es ∧ s' = { s with trace := old' ++ es }

section
variable {old old' : List Event} {s s' : State}

theorem State.ReplacesPast.emit (h : State.ReplacesPast old old' s s') (e : Event) :
    State.ReplacesPast old old' (s.emit e) (s'.emit e) := by
  obtain ⟨es, htrace, rfl⟩ := h
  exact ⟨es ++ [e], by rw [State.emit_trace, htrace, List.append_assoc], by simp only [State.emit, List.append_assoc]⟩

/-- An operation on a level appends to the trace at most the diagnostic of an absent level, the same to both. -/
theorem State.ReplacesPast.onLevel (h : State.ReplacesPast old old' s s') (n : Nat) (f : CacheLevel → CacheLevel) :
    State.ReplacesPast old old' (s.onLevel n f) (s'.onLevel n f) := by
  cases hn : s.level? n with
  | none =>
    have hn' : s'.level? n = none := by
      obtain ⟨es, -, rfl⟩ := h
      exact hn
    rw [State.onLevel_absent hn, State.onLevel_absent hn']
    exact h.emit _
  | some l =>
    obtain ⟨es, htrace, rfl⟩ := h
    have hsome : (s.level? n).isSome = true := by rw [hn, Option.isSome_some]
    have hsome' : (State.level? { s with trace := old' ++ es } n).isSome = true := hsome
    exact ⟨es, by simp only [State.onLevel, hsome, if_true, htrace],
      by simp only [State.onLevel, hsome, hsome', if_true]⟩

end

/-- Replacing the past of the trace is a simulation. -/
theorem State.replacesPast_simulation (old old' : List Event) : Simulation (State.ReplacesPast old old') where
  pc := fun ⟨_, _, h⟩ => h ▸ rfl
  opts := fun ⟨_, _, h⟩ => h ▸ rfl
  runState := fun ⟨_, _, h⟩ => h ▸ rfl
  configLegal := fun ⟨_, _, h⟩ => h ▸ rfl
  hasL2 := fun ⟨_, _, h⟩ => h ▸ rfl
  readReg := fun ⟨_, _, h⟩ _ => h ▸ rfl
  readMem := fun ⟨_, _, h⟩ _ => h ▸ rfl
  lookupLevel {s _} := fun ⟨es, _, h⟩ _ a =>
    h ▸ State.lookupLevel_congr (s := s) (t := { s with trace := old' ++ es }) rfl rfl rfl a
  readLevel {s _} := fun ⟨es, _, h⟩ _ a w _ =>
    h ▸ State.readLevel_congr (s := s) (t := { s with trace := old' ++ es }) rfl a w
  cacheEvent := fun ⟨_, _, h⟩ _ _ _ => h ▸ rfl
  writeReg := fun ⟨es, htrace, h⟩ _ _ => ⟨es, htrace, h ▸ rfl⟩
  setPc := fun ⟨es, htrace, h⟩ _ => ⟨es, htrace, h ▸ rfl⟩
  writeMem := fun ⟨es, htrace, h⟩ _ _ => ⟨es, htrace, h ▸ rfl⟩
  halt := fun ⟨es, htrace, h⟩ => ⟨es, htrace, h ▸ rfl⟩
  emit := State.ReplacesPast.emit
  countAccess := fun ⟨es, htrace, h⟩ => ⟨es, htrace, h ▸ rfl⟩
  touchLevel h n _ _ := h.onLevel n.number _
  installLevel {s s'} h n a := by
    have hsame : s'.opts = s.opts ∧ s'.draws = s.draws ∧ s'.mem = s.mem := by
      obtain ⟨es, -, rfl⟩ := h
      exact ⟨rfl, rfl, rfl⟩
    obtain ⟨hopts, hdraws, hmem⟩ := hsame
    simp only [State.installLevel, hopts, hdraws, hmem]
    exact h.onLevel n.number _

/-- A step appends events to the trace, and after any other past it appends the same events and does the same. -/
theorem step_replacesPast {s t : State} (h : step s = .next t) (other : List Event) :
    ∃ es, t.trace = s.trace ++ es ∧ step { s with trace := other } = .next { t with trace := other ++ es } := by
  have hpast : State.ReplacesPast s.trace other s { s with trace := other } :=
    ⟨[], (List.append_nil _).symm, by rw [List.append_nil]⟩
  obtain ⟨t', ht', es, htrace, rfl⟩ := (State.replacesPast_simulation s.trace other).step hpast h
  exact ⟨es, htrace, ht'⟩

/-- Settles O53: the events of a step are those of `step_replacesPast`, whatever the other past is. -/
theorem traceIsAppendOnlyAndNeverRead : Obligations.TraceIsAppendOnlyAndNeverRead := by
  intro s t h
  obtain ⟨es, htrace, -⟩ := step_replacesPast h []
  have hlen := step_trace_length_le h
  rw [htrace, List.length_append] at hlen
  refine ⟨es, htrace, by omega, fun other => ?_⟩
  obtain ⟨es', htrace', hstep⟩ := step_replacesPast h other
  obtain rfl : es = es' := List.append_cancel_left (htrace.symm.trans htrace')
  exact hstep

end Sys2Proof.Machine
end

section
/-! ## Configuration and program load (46_interfaces_trace.md R191 to R193) -/

namespace Sys2Proof.Machine

/-! ### Program load (R192, R193) -/

/-- A first line loads exactly when it parses to the expected address, inside the memory, and the other lines load from
the next address on. -/
theorem loadImageFrom_cons_eq_ok {e : Nat} {line : List Char} {lines : List (List Char)} {words : List Word} :
    loadImageFrom e (line :: lines) = .ok words ↔
      ∃ v vs, words = v :: vs ∧ e < memSize ∧ parseImageLine line = some (e, v)
        ∧ loadImageFrom (e + 1) lines = .ok vs := by
  rw [loadImageFrom]
  cases hp : parseImageLine line with
  | none => simp
  | some p =>
    obtain ⟨address, v⟩ := p
    by_cases hover : memSize ≤ address
    · simp only [hover, if_true, reduceCtorEq, false_iff]
      rintro ⟨v', vs, -, hlt, hp', -⟩
      cases hp'
      omega
    · by_cases horder : address = e
      · subst horder
        cases hl : loadImageFrom (address + 1) lines with
        | error err => simp [hover]
        | ok vs => simp [hover, Nat.lt_of_not_le hover, eq_comm (a := words)]
      · simp [hover, horder]

/-- Line `k` parses to the address `e + k` and word `k`, and there are as many words as lines. -/
def LinesParseFrom (e : Nat) (lines : List (List Char)) (words : List Word) : Prop :=
  words.length = lines.length ∧
    ∀ k line v, lines[k]? = some line → words[k]? = some v → parseImageLine line = some (e + k, v)

theorem linesParseFrom_cons {e : Nat} {line : List Char} {lines : List (List Char)} {v : Word} {vs : List Word} :
    LinesParseFrom e (line :: lines) (v :: vs) ↔
      parseImageLine line = some (e, v) ∧ LinesParseFrom (e + 1) lines vs := by
  constructor
  · rintro ⟨hlen, hparse⟩
    refine ⟨hparse 0 line v rfl rfl, Nat.succ.inj hlen, fun k line' v' hline hv => ?_⟩
    rw [Nat.add_right_comm]
    exact hparse (k + 1) line' v' hline hv
  · rintro ⟨hfirst, hlen, hparse⟩
    refine ⟨congrArg Nat.succ hlen, fun k line' v' hline hv => ?_⟩
    cases k with
    | zero =>
      cases hline
      cases hv
      exact hfirst
    | succ k =>
      have := hparse k line' v' hline hv
      rwa [Nat.add_right_comm] at this

theorem loadImageFrom_eq_ok {e : Nat} {lines : List (List Char)} {words : List Word} (he : e ≤ memSize) :
    loadImageFrom e lines = .ok words ↔ e + words.length ≤ memSize ∧ LinesParseFrom e lines words := by
  induction lines generalizing e words with
  | nil =>
    cases words with
    | nil => simp [loadImageFrom, LinesParseFrom, he]
    | cons v vs => simp [loadImageFrom, LinesParseFrom]
  | cons line lines ih =>
    rw [loadImageFrom_cons_eq_ok]
    constructor
    · rintro ⟨v, vs, rfl, hlt, hline, hrest⟩
      obtain ⟨hlen, hlines⟩ := (ih hlt).mp hrest
      exact ⟨by rw [List.length_cons]; omega, linesParseFrom_cons.mpr ⟨hline, hlines⟩⟩
    · rintro ⟨hlen, hlines⟩
      cases words with
      | nil =>
        obtain ⟨hcount, -⟩ := hlines
        cases hcount
      | cons v vs =>
        rw [List.length_cons] at hlen
        obtain ⟨hline, hrest⟩ := linesParseFrom_cons.mp hlines
        exact ⟨v, vs, rfl, by omega, hline, (ih (by omega)).mpr ⟨by omega, hrest⟩⟩

/-- Settles O60: `loadImageFrom_eq_ok` at the expected address 0. -/
theorem imageLoadsExactlyWhenInOrder : Obligations.ImageLoadsExactlyWhenInOrder := by
  intro lines words
  rw [loadImage, loadImageFrom_eq_ok (Nat.zero_le _)]
  simp only [LinesParseFrom, Nat.zero_add, memSize]
  exact and_left_comm

/-! ### Cache configuration (R191, 44_cache_level.md R141) -/

theorem levelOfInts_natCast (s a b : Nat) :
    levelOfInts s a b = if legalLevel ⟨s, a, b⟩ then some ⟨s, a, b⟩ else none := by
  simp [levelOfInts]

theorem levelOfInts_of_neg {s a b : Int} (h : s < 0 ∨ a < 0 ∨ b < 0) : levelOfInts s a b = none := by
  rw [levelOfInts, if_neg]
  rintro ⟨hs, ha, hb, -⟩
  omega

theorem configOfInts_of_length {xs : List Int} (h3 : xs.length ≠ 3) (h6 : xs.length ≠ 6) :
    configOfInts xs = .error (.badCount xs.length) := by
  unfold configOfInts
  split
  · cases h3 rfl
  · cases h6 rfl
  · rfl

/-- Six integers are refused when either triple is. -/
theorem configOfInts_six_of_none {s a b s' a' b' : Int}
    (h : levelOfInts s a b = none ∨ levelOfInts s' a' b' = none) :
    configOfInts [s, a, b, s', a', b'] = .error .illegalLevel := by
  rcases h with h | h
  · simp only [configOfInts, h]
  · cases hfirst : levelOfInts s a b <;> simp only [configOfInts, h, hfirst]

/-- Settles O59: by the count of the integers, and by what `levelOfInts` makes of each triple. -/
theorem configurationFromIntegers : Obligations.ConfigurationFromIntegers := by
  refine ⟨fun s a b => ?_, fun s a b s' a' b' => ?_, fun s a b hneg => ?_, fun s a b s' a' b' hneg => ?_,
    fun xs h3 h6 => configOfInts_of_length h3 h6⟩
  · rw [configOfInts, levelOfInts_natCast]
    cases legalLevel ⟨s, a, b⟩ <;> rfl
  · rw [configOfInts, levelOfInts_natCast, levelOfInts_natCast]
    cases legalLevel ⟨s, a, b⟩ <;> cases legalLevel ⟨s', a', b'⟩ <;> rfl
  · rw [configOfInts, levelOfInts_of_neg hneg]
  · have htriple : (s < 0 ∨ a < 0 ∨ b < 0) ∨ (s' < 0 ∨ a' < 0 ∨ b' < 0) := by omega
    exact configOfInts_six_of_none (htriple.imp levelOfInts_of_neg levelOfInts_of_neg)

end Sys2Proof.Machine
end

section
/-! ## The exception, the halt, and that every legal machine has a next state (60_exceptions.md R210 to R212,
70_reset_and_hazards.md R243 to R246)

Each statement is read off the four cases of a step. -/

namespace Sys2Proof.Machine

/-! ### A step of a running machine (R243) -/

/-- Settles O47: the two cases of a step of a running machine. -/
theorem stepRunsTheDecodedInstruction : Obligations.StepRunsTheDecodedInstruction :=
  fun _ hc hr => ⟨fun _ hd => step_of_valid hc hr hd, fun _ hd => step_of_invalid hc hr hd⟩

/-! ### The configurations with a next state (44_cache_level.md R141, R244) -/

/-- R141 with its last constraint as divisibility. -/
theorem legalLevel_iff_dvd {p : LevelParams} :
    legalLevel p = true ↔ 1 ≤ p.assoc ∧ 1 ≤ p.blockSize ∧ p.assoc * p.blockSize ≤ p.size
      ∧ p.size % (p.assoc * p.blockSize) = 0 ∧ p.blockSize ∣ 8192 := by
  rw [Nat.dvd_iff_mod_eq_zero]
  exact legalLevel_iff

/-- A configuration is legal when every level selected by a number is. -/
theorem State.configLegal_iff {s : State} :
    s.configLegal = true ↔ ∀ n l, s.level? n = some l → legalLevel l.params = true := by
  have hlevels : s.configLegal = true ↔
      legalLevel s.l1.params = true ∧ ∀ l, s.l2 = some l → legalLevel l.params = true := by
    cases h : s.l2 <;> simp [State.configLegal, h]
  rw [hlevels]
  refine ⟨fun ⟨h1, h2⟩ n l hl => ?_, fun h => ⟨h 1 s.l1 rfl, h 2⟩⟩
  rcases State.level?_cases hl with ⟨-, rfl⟩ | ⟨-, hl2⟩
  · exact h1
  · exact h2 l hl2

theorem step_of_illegal {s : State} (hc : ¬ s.configLegal = true) : step s = .refused .illegalConfiguration :=
  if_neg hc

/-- With a legal configuration every case of a step answers a next state. -/
theorem step_isNext {s : State} (hc : s.configLegal = true) : ∃ t, step s = .next t := by
  obtain ⟨hillegal, -⟩ | ⟨-, -, ht⟩ | ⟨i, -, -, -, ht⟩ | ⟨w, -, -, -, ht⟩ := step_cases (s := s) rfl
  · exact absurd hc (Bool.eq_false_iff.mp hillegal)
  · exact ⟨_, ht⟩
  · obtain ⟨t, hexec, -⟩ := exec_keeps_constants i s
    exact ⟨t, ht.trans hexec⟩
  · exact ⟨_, ht⟩

/-- Settles O48: R141 of every level is the legality of the configuration, which decides between the two answers. -/
theorem stepIsTotalOnLegalConfigurations : Obligations.StepIsTotalOnLegalConfigurations := by
  refine fun s => ⟨fun hmeets => ?_, fun ⟨n, l, hl, hfails⟩ => ?_⟩
  · exact step_isNext (State.configLegal_iff.mpr fun n l hl => legalLevel_iff_dvd.mpr (hmeets n l hl))
  · exact step_of_illegal fun hc => hfails (legalLevel_iff_dvd.mp (State.configLegal_iff.mp hc n l hl))

/-! ### The exception (60_exceptions.md R210, R211) -/

/-- The invalid instruction a word decodes to names the word itself. -/
theorem decode_of_invalid {w : Word} (h : ∃ v, decode w = .invalid v) : decode w = .invalid w := by
  obtain ⟨v, hv⟩ := h
  exact hv.trans (congrArg Decoded.invalid (decode_eq_iff.mp hv).eq_of_invalid)

theorem State.faultClass_of_invalid {s : State} {w : Word} (hr : s.runState = .running)
    (hd : decode s.fetch = .invalid w) : s.faultClass = some (.invalidInstruction s.pc w) := by
  simp only [State.faultClass, hr, hd]

/-- Settles O49: the invalid case of a step, where the word reported is the word fetched. -/
theorem invalidInstructionChangesNothingElse : Obligations.InvalidInstructionChangesNothingElse := by
  intro s hc hr hinvalid
  have hd : decode s.fetch = .invalid (s.readMem s.pc) := decode_of_invalid hinvalid
  exact ⟨State.faultClass_of_invalid hr hd, step_of_invalid hc hr hd⟩

/-- Settles O50, by induction on the number of steps: the state after the event is again a running state at the same
invalid word. -/
theorem invalidInstructionRepeatsForEver : Obligations.InvalidInstructionRepeatsForEver := by
  intro s k hc hr hinvalid
  induction k generalizing s with
  | zero =>
    rw [List.replicate_zero, List.append_nil]
    rfl
  | succ k ih =>
    obtain ⟨-, hstep⟩ := invalidInstructionChangesNothingElse s hc hr hinvalid
    have hrest := ih (s.raiseInvalidInstruction (s.readMem s.pc)) hc hr hinvalid
    rw [State.raiseInvalidInstruction_trace, List.append_assoc, List.singleton_append] at hrest
    exact (core_run_succ k hstep).trans hrest

/-! ### The halt (42_control.md R123, 70_reset_and_hazards.md R246) -/

/-- The words of `j`: opcode 2, and the target in the other bits. -/
theorem decode_eq_j_iff {w : Word} {target : Nat} :
    decode w = .valid (.j target) ↔ w.toNat / 8192 = 2 ∧ w.toNat % 8192 = target := by
  rw [← fieldOp_toNat, ← fieldImm13_toNat, decode_eq_iff]
  constructor
  · intro h
    cases h with
    | j ht => rw [fieldOp_encodeJ, fieldImm13_encodeJ _ ht]; exact ⟨rfl, rfl⟩
  · rintro ⟨ho, rfl⟩
    exact .of_fieldsJ (op := opJ) (BitVec.eq_of_toNat_eq ho) (.j (targetFits_fieldImm13 w))

/-- Of the effects of an instruction only the halt form of `j` halts a running machine. -/
theorem Effect.eq_halt {i : Instr} {s t : State} (h : Effect i s t) (hr : s.runState = .running)
    (ht : t.runState = .halted) : i = .j s.pc.toNat ∧ t = s.halt := by
  have hrunning {u : State} (hu : u.runState = s.runState) : u.runState ≠ .halted := by
    rw [hu, hr]
    decide
  cases h with
  | write hd v => exact absurd ht (hrunning rfl)
  | jump hd => exact absurd ht (hrunning rfl)
  | halt => exact ⟨rfl, rfl⟩
  | load a b imm =>
    obtain ⟨-, -, -, hrun, -⟩ := s.cacheLoad_frame (effectiveAddr (s.readReg a) imm)
    exact absurd ht (hrunning hrun)
  | store a b imm =>
    obtain ⟨-, -, -, hrun, -⟩ := s.cacheStore_frame (effectiveAddr (s.readReg a) imm) (s.readReg b)
    exact absurd ht (hrunning hrun)

/-- A step that halts a running machine fetched a `j` to its own address. -/
theorem step_eq_halt {s t : State} (hr : s.runState = .running) (h : step s = .next t) (ht : t.runState = .halted) :
    decode s.fetch = .valid (.j s.pc.toNat) ∧ t = s.halt := by
  obtain ⟨-, hnext⟩ | ⟨-, hhalted, -⟩ | ⟨i, -, -, hd, hnext⟩ | ⟨w, -, -, -, hnext⟩ := step_cases h
  · cases hnext
  · cases hr.symm.trans hhalted
  · obtain ⟨rfl, hhalt⟩ := (exec_effect hnext.symm).eq_halt hr ht
    exact ⟨hd, hhalt⟩
  · cases hnext
    cases hr.symm.trans ht

theorem State.configLegal_of_step {s t : State} (h : step s = .next t) : s.configLegal = true := by
  by_contra hc
  cases h.symm.trans (step_of_illegal hc)

theorem step_of_j_self {s : State} (hc : s.configLegal = true) (hr : s.runState = .running)
    (hd : decode s.fetch = .valid (.j s.pc.toNat)) : step s = .next s.halt :=
  (step_of_valid hc hr hd).trans (exec_j_self s)

/-- Settles O51: a running machine is halted by a `j` to its own address and by nothing else. -/
theorem runEndsExactlyAtAHalt : Obligations.RunEndsExactlyAtAHalt := by
  refine fun s t hr h => ⟨⟨fun ht => ?_, fun hword => ?_⟩, fun ht => (step_eq_halt hr h ht).2⟩
  · exact decode_eq_j_iff.mp (step_eq_halt hr h ht).1
  · cases h.symm.trans (step_of_j_self (State.configLegal_of_step h) hr (decode_eq_j_iff.mpr hword))
    exact s.halt_runState

end Sys2Proof.Machine
end
